-- ==== Sys2Proof/Word.lean ====
section
/-! DEFINITION. The widths of the values the block handles (00_scope.md R4, R5): bytes, the 16-bit
length field, the 32-bit checksum field. No value is signed. -/

namespace Sys2Proof

/-- A byte: an 8-bit unsigned value, bit 0 the least significant (R5). -/
abbrev Byte := BitVec 8

/-- The 16-bit length field of both packet kinds (R4). -/
abbrev Half := BitVec 16

/-- The 32-bit checksum field of a command packet (R4). -/
abbrev Word32 := BitVec 32

/-- A byte sequence, index 0 the first byte written to or read from the transport (R41). -/
abbrev Bytes := List Byte

end Sys2Proof
end

