-- ==== Sys2Proof/Config.lean ====
section
/-! DEFINITION. The parameters of an instance of the block (00_scope.md R2) and the two instances the
spec names. The two OPEN parameters are opaque constants: no value of theirs can be proved. -/

namespace Sys2Proof

/-- The parameters an instance is made with (R2): fixed for its life, no request changes one (R29). -/
structure Params where
  /-- `DELIM`: opens and closes a frame. -/
  delim : Byte
  /-- `ESC`: first byte of an escape sequence. -/
  esc : Byte
  /-- `ESC_DELIM_CODE`: the escape code that stands for `DELIM`. -/
  escDelimCode : Byte
  /-- `ESC_ESC_CODE`: the escape code that stands for `ESC`. -/
  escEscCode : Byte
  /-- `MAX_FRAME_LEN`: the longest frame content the decoder accepts, in decoded bytes. -/
  maxFrameLen : Nat
  /-- `CHECKSUM_SEED`: the initial value of the checksum's fold. -/
  checksumSeed : Byte
deriving DecidableEq, Repr

/-- `CHECKSUM_SEED`, OPEN in the spec (R2, D11): no value is chosen. DESIGN CHOICE of the form only,
safe (log entry 5). -/
opaque Config.checksumSeed : Byte

/-- `MAX_FRAME_LEN` less one. `MAX_FRAME_LEN` is OPEN and at least 1 (R2, R3, D8), so it is this
constant plus one. DESIGN CHOICE of the form only, safe (log entry 5). -/
opaque Config.maxFrameLenLessOne : Nat

/-- An instance with the SLIP byte values, which R2 decides as the default (UNVERIFIED against the
real ROM loader: `[from general knowledge]` in the spec, G1; unsafe, log entry 6). -/
def Params.slip (maxFrameLen : Nat) (checksumSeed : Byte) : Params where
  delim := 0xC0
  esc := 0xDB
  escDelimCode := 0xDC
  escEscCode := 0xDD
  maxFrameLen := maxFrameLen
  checksumSeed := checksumSeed

/-- An instance with the HDLC-style byte values, the admitted alternative of R2 (G2). -/
def Params.hdlc (maxFrameLen : Nat) (checksumSeed : Byte) : Params where
  delim := 0x7E
  esc := 0x7D
  escDelimCode := 0x5E
  escEscCode := 0x5D
  maxFrameLen := maxFrameLen
  checksumSeed := checksumSeed

/-- The default instance: the decided byte values, the OPEN parameters left open. -/
def Config.params : Params :=
  Params.slip (Config.maxFrameLenLessOne + 1) Config.checksumSeed

end Sys2Proof
end

