-- ==== Sys2Proof/Syntax.lean ====
section
/-! DEFINITION. The requests of the block: one constructor of `Instr` per row of the operation map
(30_encoding.md R63), and the request as the caller presents it (R60, R61). -/

namespace Sys2Proof

/-- The status width `W` of a response: 2 or 4 bytes, no other can be encoded (R4, R61). -/
inductive StatusWidth where
  /-- `W = 2`, syntax suffix `.S2`. -/
  | s2
  /-- `W = 4`, syntax suffix `.S4`, the default of the syntax. -/
  | s4
deriving DecidableEq, Repr

/-- The operations of R63 with their operands. -/
inductive Instr where
  /-- FENC, frame encode (R102). -/
  | fenc (F : Bytes)
  /-- FDECB, decode one byte (R108). -/
  | fdecb (b : Byte)
  /-- FDEC, decode from a byte sequence (R110). -/
  | fdec (S : Bytes)
  /-- FRST, decoder reset (R111). -/
  | frst
  /-- FSTAT, decoder status (R112). -/
  | fstat
  /-- CSUM, payload checksum (R140). -/
  | csum (P : Bytes)
  /-- PBUILD, build a command packet (R142). -/
  | pbuild (op : Byte) (P : Bytes)
  /-- PPARSE_CMD, parse and check a command packet (R143). -/
  | pparseCmd (K : Bytes)
  /-- PPARSE_RSP, parse a response packet under status width `W` (R144). -/
  | pparseRsp (W : StatusWidth) (K : Bytes)
deriving DecidableEq, Repr

/-- A request as it arrives (R60): the request word of R61, and the two kinds of operand R63 gives any
operation, a byte (`b` or `op`) and a byte sequence (`F`, `S`, `P` or `K`). "An operand the operation
does not take is not part of its request": what stands in its place here is never looked at.
DESIGN CHOICE, safe (log entry 1). -/
structure Request where
  word : Byte
  byteArg : Byte := 0
  bytesArg : Bytes := []
deriving DecidableEq, Repr

end Sys2Proof
end

