-- ==== Sys2Proof/WellFormed.lean ====
section
/-! DEFINITION. What makes an instance valid (00_scope.md R3) and a request word legal (30_encoding.md
R63, R64). Every term of `Instr` is well formed: its types admit only the widths and operands R61 and
R63 give. -/

namespace Sys2Proof

/-- R3: the conditions (a) to (d) on an instance's parameters. (d), `MAX_FRAME_LEN >= 1`, is written
`≠ 0`, so that it can be evaluated at the default instance. -/
abbrev Params.Valid (p : Params) : Prop :=
  p.delim ≠ p.esc ∧
  p.escDelimCode ≠ p.escEscCode ∧
  (p.escDelimCode ≠ p.delim ∧ p.escDelimCode ≠ p.esc ∧
    p.escEscCode ≠ p.delim ∧ p.escEscCode ≠ p.esc) ∧
  p.maxFrameLen ≠ 0

/-- R64, first condition: `OP` is 0x0 or 0xA to 0xF. -/
def reservedOp (w : Byte) : Bool :=
  w &&& 0x0F == 0 || decide (0x0A ≤ w &&& 0x0F)

/-- R64, second condition: `RSV` is not 0. -/
def reservedRsv (w : Byte) : Bool :=
  w &&& 0xE0 != 0

/-- R64, third condition: `W` is 1 and `OP` is not 0x9. -/
def reservedWidth (w : Byte) : Bool :=
  w &&& 0x10 != 0 && w &&& 0x0F != 0x09

/-- R64: a request word is reserved when any of the three conditions holds. -/
def reservedWord (w : Byte) : Bool :=
  reservedOp w || reservedRsv w || reservedWidth w

/-- A request is well formed when its word is legal (R63, R64); its operands may be anything (R60). -/
def Request.wellFormed (r : Request) : Bool :=
  !reservedWord r.word

end Sys2Proof
end

