-- ==== Sys2Proof/Decode.lean ====
section
/-! DEFINITION. Request words and their meaning (30_encoding.md R61, R63, R64, R70, R73): the decoder,
total on every request, and the encoder after it. -/

namespace Sys2Proof

/-- Why a request word is reserved, each by the condition of R64 it meets. The block answers each with
BAD_REQUEST (R205); the name is the model's. -/
inductive Reject where
  /-- `RSV`, bits 7:5, is not 0. -/
  | rsvNotZero
  /-- `W`, bit 4, is 1 for an operation other than PPARSE_RSP. -/
  | widthNotZero
  /-- `OP`, bits 3:0, is 0x0 or 0xA to 0xF. -/
  | opReserved
deriving DecidableEq, Repr

/-- `OP`, bits 3:0 of the request word (R61). -/
def opField (w : Byte) : BitVec 4 := w.extractLsb' 0 4

/-- `W`, bit 4 of the request word (R61). -/
def widthField (w : Byte) : BitVec 1 := w.extractLsb' 4 1

/-- `RSV`, bits 7:5 of the request word (R61). -/
def rsvField (w : Byte) : BitVec 3 := w.extractLsb' 5 3

/-- The status width that bit 4 selects: 0 selects 2, 1 selects 4 (R61, R70). -/
def statusWidthOf (w : BitVec 1) : StatusWidth :=
  if w = 0 then .s2 else .s4

/-- The bit 4 that selects a status width (R61). -/
def widthBitOf : StatusWidth → BitVec 1
  | .s2 => 0
  | .s4 => 1

/-- An operation other than PPARSE_RSP: its word must have `W = 0` (R61). -/
def withoutWidth (w : Byte) (i : Instr) : Except Reject Instr :=
  if widthField w = 0 then .ok i else .error .widthNotZero

/-- R63: the operation a request word selects, with the operands that operation takes; R64: every other
word is rejected by name. -/
def decode : Request → Except Reject Instr
  | ⟨word, byteArg, bytesArg⟩ =>
    if rsvField word ≠ 0 then .error .rsvNotZero
    else
      match (opField word).toNat with
      | 0x1 => withoutWidth word (.fenc bytesArg)
      | 0x2 => withoutWidth word (.fdecb byteArg)
      | 0x3 => withoutWidth word (.fdec bytesArg)
      | 0x4 => withoutWidth word .frst
      | 0x5 => withoutWidth word .fstat
      | 0x6 => withoutWidth word (.csum bytesArg)
      | 0x7 => withoutWidth word (.pbuild byteArg bytesArg)
      | 0x8 => withoutWidth word (.pparseCmd bytesArg)
      | 0x9 => .ok (.pparseRsp (statusWidthOf (widthField word)) bytesArg)
      | _ => .error .opReserved

/-- A request word from its fields: `RSV` 0, `W`, `OP` (R61). -/
def requestWord (w : BitVec 1) (op : BitVec 4) : Byte := (0 : BitVec 3) ++ w ++ op

/-- The request of an operation (R63, R71), with nothing in the place of an operand it does not take. -/
def encode : Instr → Request
  | .fenc F => ⟨requestWord 0 0x1, 0, F⟩
  | .fdecb b => ⟨requestWord 0 0x2, b, []⟩
  | .fdec S => ⟨requestWord 0 0x3, 0, S⟩
  | .frst => ⟨requestWord 0 0x4, 0, []⟩
  | .fstat => ⟨requestWord 0 0x5, 0, []⟩
  | .csum P => ⟨requestWord 0 0x6, 0, P⟩
  | .pbuild op P => ⟨requestWord 0 0x7, op, P⟩
  | .pparseCmd K => ⟨requestWord 0 0x8, 0, K⟩
  | .pparseRsp W K => ⟨requestWord (widthBitOf W) 0x9, 0, K⟩

/-- The request whose bits are `w`: the word has one length, 8 bits (R73), and every bit above it is
part of an operand, here 0 (the byte 0, the empty sequence). -/
def requestOfBits (w : Nat) : Request := ⟨BitVec.ofNat 8 w, 0, []⟩

/-- The operation the decoder reads from a table row's word of `nbits` bits. A word of another length
than 8 bits, or a number that 8 bits do not hold, is no request word (R73). -/
def decodeTableWord (nbits w : Nat) : Option Instr :=
  if nbits = 8 ∧ w < 256 then
    match decode (requestOfBits w) with
    | .ok i => some i
    | .error _ => none
  else none

/-- One row of spec/opcode_table.json: a word `w` is the row's when `w &&& mask = pattern`. -/
structure OpcodeRow where
  mnemonic : String
  pattern : Byte
  mask : Byte
deriving DecidableEq, Repr

/-- spec/opcode_table.json, row by row (its `match` and `mask`). -/
def opcodeTable : List OpcodeRow :=
  [⟨"FENC", 0x01, 0xFF⟩, ⟨"FDECB", 0x02, 0xFF⟩, ⟨"FDEC", 0x03, 0xFF⟩, ⟨"FRST", 0x04, 0xFF⟩,
   ⟨"FSTAT", 0x05, 0xFF⟩, ⟨"CSUM", 0x06, 0xFF⟩, ⟨"PBUILD", 0x07, 0xFF⟩,
   ⟨"PPARSE_CMD", 0x08, 0xFF⟩, ⟨"PPARSE_RSP", 0x09, 0xEF⟩]

/-- Does a request word belong to a row of the opcode table? -/
def OpcodeRow.matchesWord (row : OpcodeRow) (w : Byte) : Bool := w &&& row.mask == row.pattern

/-- The mnemonic of an operation (R63). -/
def Instr.mnemonic : Instr → String
  | .fenc _ => "FENC"
  | .fdecb _ => "FDECB"
  | .fdec _ => "FDEC"
  | .frst => "FRST"
  | .fstat => "FSTAT"
  | .csum _ => "CSUM"
  | .pbuild _ _ => "PBUILD"
  | .pparseCmd _ => "PPARSE_CMD"
  | .pparseRsp _ _ => "PPARSE_RSP"

end Sys2Proof
end

