-- ==== Sys2Proof/Machine/State.lean ====
section
/-! DEFINITION. The state of the block (10_state.md R20 to R30), its result records (30_encoding.md R62),
and the reasons a step can stop. -/

namespace Sys2Proof.Machine

/-- `rx_state` (R24), four legal values; `RxState.code` gives the 2-bit encoding. -/
inductive RxState where
  /-- 0: outside any frame, waiting for the `DELIM` that opens one. -/
  | hunt
  /-- 1: inside a frame. -/
  | inFrame
  /-- 2: inside a frame, immediately after an `ESC`. -/
  | escape
  /-- 3: after a FramingError, discarding up to and including the closing `DELIM`. -/
  | skip
deriving DecidableEq, Repr

/-- The state of the frame decoder, all the persistent state the block has (R20). -/
structure Decoder where
  /-- `rx_state` (R24). -/
  rxState : RxState
  /-- `rx_buf` (R25): the content decoded so far, in arrival order, escapes already reversed. -/
  rxBuf : Bytes
deriving DecidableEq, Repr

/-- The reset values of R30: `HUNT`, empty buffer. -/
def Decoder.reset : Decoder := ⟨.hunt, []⟩

/-- The class of a byte (00_scope.md R7). -/
inductive ByteClass where
  /-- `D`: the byte is `DELIM`. -/
  | delim
  /-- `E`: the byte is `ESC`. -/
  | esc
  /-- `CD`: the byte is `ESC_DELIM_CODE`. -/
  | codeDelim
  /-- `CE`: the byte is `ESC_ESC_CODE`. -/
  | codeEsc
  /-- `O`: any other byte. -/
  | other
deriving DecidableEq, Repr

/-- The outcome of one `DecStep` (40_frame_codec.md R103 to R107). -/
inductive DecOutcome where
  /-- INCOMPLETE: the byte was absorbed or discarded, no frame has ended. -/
  | incomplete
  /-- OK: a frame ended, with this content. -/
  | delivered (content : Bytes)
  /-- FERR_BAD_ESCAPE. -/
  | badEscape
  /-- FERR_ESCAPE_AT_END. -/
  | escapeAtEnd
  /-- FERR_OVERSIZE. -/
  | oversize
deriving DecidableEq, Repr

/-- What a run of `DecStep`s over a byte sequence leaves (R110). -/
structure DecRun where
  dec : Decoder
  outcome : DecOutcome
  consumed : Nat
deriving DecidableEq, Repr

/-- The result codes (60_exceptions.md R200); `Code.value` gives the byte. "No other value is ever
returned." -/
inductive Code where
  | ok | incomplete
  | ferrBadEscape | ferrEscapeAtEnd | ferrOversize
  | malShort | malLength | malChecksum
  | lengthOverflow | badRequest
deriving DecidableEq, Repr

/-- The classes of result codes (R200). -/
inductive CodeClass where
  | normal | framingError | malformed | requestError
deriving DecidableEq, Repr

/-- The result record of a request (R62). A field the table of R62 does not list for the request's
operation and outcome is absent (`none`). -/
structure Result where
  /-- `code`: every request. -/
  code : Code
  /-- `data`: FENC; FDECB, FDEC and PBUILD with code OK. -/
  data : Option Bytes := none
  /-- `consumed`: FDECB and FDEC, every outcome. -/
  consumed : Option Nat := none
  /-- `opcode`: PPARSE_CMD and PPARSE_RSP with code OK. -/
  opcode : Option Byte := none
  /-- `status`: PPARSE_RSP with code OK. -/
  status : Option Bytes := none
  /-- `payload`: PPARSE_CMD and PPARSE_RSP with code OK. -/
  payload : Option Bytes := none
  /-- `checksum`: PPARSE_CMD with code OK or MAL_CHECKSUM, the received field. -/
  checksum : Option Word32 := none
  /-- `csum`: CSUM; PPARSE_CMD with code MAL_CHECKSUM, the computed value. -/
  csum : Option Byte := none
  /-- `state`: FSTAT, `rx_state`. -/
  state : Option (BitVec 2) := none
  /-- `length`: FSTAT, `rx_len`; the parsers with code MAL_LENGTH, the declared length. -/
  length : Option Nat := none
deriving DecidableEq, Repr

/-- What the outside can do to the block: issue a request (R60), or reset the instance by power (R240).
-/
inductive Input where
  | request (r : Request)
  | powerOnReset
deriving DecidableEq, Repr

/-- The state of one instance. `dec` is all the state the spec gives it (R20). `params` is its
configuration (R2, R29: no state; log entry 4). `inputs` and `results` are the model's own: what the
caller has issued and not yet seen performed, and the records returned, both oldest first (R45, R250;
log entries 2 and 3). -/
structure State where
  params : Params
  dec : Decoder
  inputs : List Input
  results : List Result
deriving DecidableEq, Repr

/-- The machine right after reset: the decoder at the values of R30, the default instance of R2 with
its OPEN parameters open, no request issued yet (R242: "After reset it waits for its first request"). -/
def State.reset : State where
  params := Config.params
  dec := Decoder.reset
  inputs := []
  results := []

/-- The reasons the machine stops with a fault: none. "Nothing in the block is `fault` or `stuck`"
(93_implementation_defined.md), no outcome halts the block (R211). -/
inductive Fault where
deriving DecidableEq, Repr

/-- The reasons a step has no meaning. -/
inductive Refusal where
  /-- Raised by `exec` for an instruction without a meaning; no arm does. Safe. -/
  | notModelled (mnemonic : String)
  /-- Raised by `step` for an instance whose parameters violate R3: "not a valid instance of the block,
  and a model refuses it". Safe. -/
  | invalidParams
deriving DecidableEq, Repr

/-- What a step finds to do: nothing, a power-on reset, or a request, with the state once that input is
taken. -/
inductive Pending where
  | idle
  | powerOnReset (rest : State)
  | request (r : Request) (rest : State)
deriving DecidableEq, Repr

end Sys2Proof.Machine
end

