-- ==== Sys2Proof/Machine/Flags.lean ====
section
/-! DEFINITION. The block has no flags (10_state.md R23); what reports an outcome is the result code
(60_exceptions.md R200). This file holds the encodings of codes and of `rx_state`, and what R200 to
R204 say of the classes of codes. -/

namespace Sys2Proof.Machine

/-- The byte of each result code (R200). -/
def Code.value : Code → Byte
  | .ok => 0x00
  | .incomplete => 0x01
  | .ferrBadEscape => 0x10
  | .ferrEscapeAtEnd => 0x11
  | .ferrOversize => 0x12
  | .malShort => 0x20
  | .malLength => 0x21
  | .malChecksum => 0x22
  | .lengthOverflow => 0x30
  | .badRequest => 0x3F

/-- "Bits 7:4 of a code give its class: 0 normal, 1 FramingError, 2 Malformed, 3 request error" (R200).
-/
def classOfValue (v : Byte) : Option CodeClass :=
  match (v.extractLsb' 4 4).toNat with
  | 0 => some .normal
  | 1 => some .framingError
  | 2 => some .malformed
  | 3 => some .requestError
  | _ => none

/-- An error is a code of another class than normal; INCOMPLETE is none (R201). -/
def Code.isError (c : Code) : Bool := classOfValue c.value != some .normal

/-- The FramingErrors and the Malformed codes are retryable (R202, R203); LENGTH_OVERFLOW is not (R204).
For BAD_REQUEST, a property of the word itself, the spec says nothing: counted as not retryable
(DESIGN CHOICE, log entry 18; nothing the block does reads this). -/
def Code.isRetryable (c : Code) : Bool :=
  classOfValue c.value == some .framingError || classOfValue c.value == some .malformed

/-- The 2-bit encoding of `rx_state` (R24). -/
def RxState.code : RxState → BitVec 2
  | .hunt => 0
  | .inFrame => 1
  | .escape => 2
  | .skip => 3

end Sys2Proof.Machine
end

