-- ==== Sys2Proof/Machine/Operands.lean ====
section
/-! DEFINITION. Assembling operands and packet fields (00_scope.md R5, 30_encoding.md R70): slices,
zero and sign extension, little-endian fields, the status width. -/

namespace Sys2Proof.Machine

/-- `s[i]`, the byte of `s` at index `i` (R5). No rule reads an index that is not below `len(s)`; such
a read gives 0 here (DESIGN CHOICE, safe: unreachable, log entry 17). -/
def byteAt (s : Bytes) (i : Nat) : Byte := s.getD i 0

/-- `s[i..j)`, the bytes of indices `i` to `j - 1` (R5). -/
def slice (s : Bytes) (i j : Nat) : Bytes := (s.drop i).take (j - i)

/-- `zext_N(v)`: `v` widened to `N` bits with zeros (R5). -/
def zext {w : Nat} (n : Nat) (v : BitVec w) : BitVec n := v.setWidth n

/-- `sext_N(v)`: sign extension from the top bit (R5); "no rule uses it". -/
def sext {w : Nat} (n : Nat) (v : BitVec w) : BitVec n := v.signExtend n

/-- `le16(s, i)`: the little-endian 16-bit field at index `i` (R5). -/
def le16 (s : Bytes) (i : Nat) : Half :=
  zext 16 (byteAt s i) ||| zext 16 (byteAt s (i + 1)) <<< 8

/-- `le32(s, i)`: the little-endian 32-bit field at index `i` (R5). -/
def le32 (s : Bytes) (i : Nat) : Word32 :=
  zext 32 (byteAt s i) ||| zext 32 (byteAt s (i + 1)) <<< 8 |||
    zext 32 (byteAt s (i + 2)) <<< 16 ||| zext 32 (byteAt s (i + 3)) <<< 24

/-- `bytes_le16(v)` is `[v[7:0] v[15:8]]` (R5). -/
def bytesLe16 (v : Half) : Bytes := [v.extractLsb' 0 8, v.extractLsb' 8 8]

/-- `bytes_le32(v)` is `[v[7:0] v[15:8] v[23:16] v[31:24]]` (R5). -/
def bytesLe32 (v : Word32) : Bytes :=
  [v.extractLsb' 0 8, v.extractLsb' 8 8, v.extractLsb' 16 8, v.extractLsb' 24 8]

/-- `W` in bytes (R61). -/
def statusBytes : StatusWidth → Nat
  | .s2 => 2
  | .s4 => 4

/-- `rx_len` is `len(rx_buf)`, a view of `rx_buf` and no state (R26). -/
def rxLen (d : Decoder) : Nat := d.rxBuf.length

end Sys2Proof.Machine
end

