-- ==== Sys2Proof/Machine/Ops.lean ====
section
/-! DEFINITION. The shared operations: ending a request, the answer to a reserved word, reset, taking
the next input; byte classes, byte-stuffing and the decoder step (40_frame_codec.md R100 to R110); the
checksum and the packet layouts (41_packet_codec.md R140 to R144). The block has no traps (R207): an
error is a result record like any other. -/

namespace Sys2Proof.Machine

/-! ### Requests and results -/

/-- The caller receives a result record (R62). -/
def State.respond (s : State) (r : Result) : State := { s with results := s.results ++ [r] }

/-- The decoder state is written (R28: by FDECB, FDEC and FRST only). -/
def State.withDec (s : State) (d : Decoder) : State := { s with dec := d }

/-- `return <Code>(fields)` and `raise <Code>(info)` (R6): the request ends with its record. -/
def State.conclude (s : State) (r : Result) : Host.Outcome State Fault Refusal := .next (s.respond r)

/-- A reserved request word (R205): no operand is examined, no state changes, code BAD_REQUEST. -/
def State.badRequest (s : State) : Host.Outcome State Fault Refusal :=
  s.conclude { code := .badRequest }

/-- The power-on reset (R240): the decoder at its reset values; parameters have no reset; no record. -/
def State.powerOn (s : State) : State := s.withDec Decoder.reset

/-- The next thing to do: inputs are taken in the order the caller issued them (R45). -/
def State.pending (s : State) : Pending :=
  match s.inputs with
  | [] => .idle
  | .powerOnReset :: rest => .powerOnReset { s with inputs := rest }
  | .request r :: rest => .request r { s with inputs := rest }

/-- The caller presents a request that the block performs before any other still pending. -/
def State.presentFirst (s : State) (r : Request) : State :=
  { s with inputs := .request r :: s.inputs }

/-- The record of the last request performed. -/
def State.lastResult (s : State) : Option Result := s.results.getLast?

/-! ### Byte-stuffing -/

/-- `cls(b)` (R7). -/
def cls (p : Params) (b : Byte) : ByteClass :=
  if b = p.delim then .delim
  else if b = p.esc then .esc
  else if b = p.escDelimCode then .codeDelim
  else if b = p.escEscCode then .codeEsc
  else .other

/-- `esc(b)`: the wire bytes of one content byte (R65, R100). -/
def stuffByte (p : Params) (b : Byte) : Bytes :=
  if b = p.delim then [p.esc, p.escDelimCode]
  else if b = p.esc then [p.esc, p.escEscCode]
  else [b]

/-- `stuff(F)` (R100). -/
def stuff (p : Params) : Bytes → Bytes
  | [] => []
  | b :: F => stuffByte p b ++ stuff p F

/-- The frame of content `F`: `[DELIM] ++ stuff(F) ++ [DELIM]` (R65). -/
def frame (p : Params) (F : Bytes) : Bytes := [p.delim] ++ stuff p F ++ [p.delim]

/-- `unesc(c)` of an escape code, by its class; "not defined for any other byte" (R101). -/
def unesc (p : Params) : ByteClass → Option Byte
  | .codeDelim => some p.delim
  | .codeEsc => some p.esc
  | .delim => none
  | .esc => none
  | .other => none

/-- `Append(v)` (R107). -/
def appendByte (p : Params) (d : Decoder) (v : Byte) : Decoder × DecOutcome :=
  if d.rxBuf.length = p.maxFrameLen then (⟨.skip, []⟩, .oversize)
  else (⟨.inFrame, d.rxBuf ++ [v]⟩, .incomplete)

/-- `HUNT` (R103). -/
def decHunt (p : Params) (d : Decoder) (b : Byte) : Decoder × DecOutcome :=
  match cls p b with
  | .delim => (⟨.inFrame, []⟩, .incomplete)
  | .esc => (d, .incomplete)
  | .codeDelim => (d, .incomplete)
  | .codeEsc => (d, .incomplete)
  | .other => (d, .incomplete)

/-- `IN_FRAME` (R104). -/
def decInFrame (p : Params) (d : Decoder) (b : Byte) : Decoder × DecOutcome :=
  match cls p b with
  | .delim =>
    if d.rxBuf = [] then (d, .delivered [])
    else (⟨.hunt, []⟩, .delivered d.rxBuf)
  | .esc => (⟨.escape, d.rxBuf⟩, .incomplete)
  | .codeDelim => appendByte p d b
  | .codeEsc => appendByte p d b
  | .other => appendByte p d b

/-- `ESCAPE` (R105). -/
def decEscape (p : Params) (d : Decoder) (b : Byte) : Decoder × DecOutcome :=
  match unesc p (cls p b) with
  | some v => appendByte p d v
  | none =>
    if cls p b = .delim then (⟨.inFrame, []⟩, .escapeAtEnd)
    else (⟨.skip, []⟩, .badEscape)

/-- `SKIP` (R106). -/
def decSkip (p : Params) (d : Decoder) (b : Byte) : Decoder × DecOutcome :=
  match cls p b with
  | .delim => (⟨.inFrame, d.rxBuf⟩, .incomplete)
  | .esc => (d, .incomplete)
  | .codeDelim => (d, .incomplete)
  | .codeEsc => (d, .incomplete)
  | .other => (d, .incomplete)

/-- `DecStep(b)` (R103 to R107): a total function of the decoder state, the byte and the parameters
(R118). -/
def decStep (p : Params) (d : Decoder) (b : Byte) : Decoder × DecOutcome :=
  match d.rxState with
  | .hunt => decHunt p d b
  | .inFrame => decInFrame p d b
  | .escape => decEscape p d b
  | .skip => decSkip p d b

/-- The loop of FDEC (R110): bytes in index order, up to the first outcome that is not INCOMPLETE. -/
def decRun (p : Params) : Decoder → Bytes → DecRun
  | d, [] => ⟨d, .incomplete, 0⟩
  | d, b :: S =>
    if (decStep p d b).2 = .incomplete then
      { decRun p (decStep p d b).1 S with
        consumed := (decRun p (decStep p d b).1 S).consumed + 1 }
    else ⟨(decStep p d b).1, (decStep p d b).2, 1⟩

/-- The record of a decoder outcome (R62, R108, R110). -/
def decResult (consumed : Nat) : DecOutcome → Result
  | .incomplete => { code := .incomplete, consumed := some consumed }
  | .delivered content => { code := .ok, data := some content, consumed := some consumed }
  | .badEscape => { code := .ferrBadEscape, consumed := some consumed }
  | .escapeAtEnd => { code := .ferrEscapeAtEnd, consumed := some consumed }
  | .oversize => { code := .ferrOversize, consumed := some consumed }

/-! ### Checksum and packets -/

/-- The exclusive or of the bytes of `P`, folded into `c` (R140, R145). -/
def xorFold (c : Byte) : Bytes → Byte
  | [] => c
  | b :: P => xorFold (c ^^^ b) P

/-- `CSUM(P)` (R140). -/
def csumOf (p : Params) (P : Bytes) : Byte := xorFold p.checksumSeed P

/-- The command packet of opcode `op` and payload `P` (R66, R141). -/
def commandPacket (p : Params) (op : Byte) (P : Bytes) : Bytes :=
  [op] ++ bytesLe16 (BitVec.ofNat 16 P.length) ++ P ++ bytesLe32 (zext 32 (csumOf p P))

/-- What PBUILD returns (R142); 65535 is the greatest length the 16-bit length field holds. -/
def buildCommand (p : Params) (op : Byte) (P : Bytes) : Result :=
  if P.length > 65535 then { code := .lengthOverflow }
  else { code := .ok, data := some (commandPacket p op P) }

/-- What PPARSE_CMD returns (R143), its checks in the order of R206. -/
def parseCommand (p : Params) (K : Bytes) : Result :=
  if K.length < 3 then { code := .malShort }
  else
    let n := (le16 K 1).toNat
    if K.length ≠ 7 + n then { code := .malLength, length := some n }
    else
      let P := slice K 3 (3 + n)
      let crx := le32 K (3 + n)
      let c := csumOf p P
      if crx ≠ zext 32 c then { code := .malChecksum, checksum := some crx, csum := some c }
      else { code := .ok, opcode := some (byteAt K 0), payload := some P, checksum := some crx }

/-- What PPARSE_RSP returns (R144), its checks in the order of R206. -/
def parseResponse (W : StatusWidth) (K : Bytes) : Result :=
  if K.length < 3 then { code := .malShort }
  else
    let n := (le16 K 1).toNat
    let w := statusBytes W
    if K.length ≠ 3 + w + n then { code := .malLength, length := some n }
    else { code := .ok, opcode := some (byteAt K 0), status := some (slice K 3 (3 + w)),
           payload := some (slice K (3 + w) (3 + w + n)) }

/-- The response packet of R67 with opcode echo `op`, status bytes `st` and payload `P`. The block never
builds one; the far end does. -/
def responsePacket (op : Byte) (st P : Bytes) : Bytes :=
  [op] ++ bytesLe16 (BitVec.ofNat 16 P.length) ++ st ++ P

end Sys2Proof.Machine
end

