-- ==== Sys2Proof/Machine/FrameCodec.lean ====
section
/-! DEFINITION. The frame codec's requests: FENC, FDECB, FDEC, FRST, FSTAT (40_frame_codec.md). -/

namespace Sys2Proof.Machine

/-- FENC (R102): always OK, whatever the length of `F`. -/
def execFenc (F : Bytes) (s : State) : Host.Outcome State Fault Refusal :=
  s.conclude { code := .ok, data := some (frame s.params F) }

/-- FDECB (R108): one `DecStep`, `consumed` 1. -/
def execFdecb (b : Byte) (s : State) : Host.Outcome State Fault Refusal :=
  (s.withDec (decStep s.params s.dec b).1).conclude (decResult 1 (decStep s.params s.dec b).2)

/-- FDEC (R110): `DecStep`s up to the first outcome that is not INCOMPLETE. -/
def execFdec (S : Bytes) (s : State) : Host.Outcome State Fault Refusal :=
  (s.withDec (decRun s.params s.dec S).dec).conclude
    (decResult (decRun s.params s.dec S).consumed (decRun s.params s.dec S).outcome)

/-- FRST (R111): the decoder at its reset values. -/
def execFrst (s : State) : Host.Outcome State Fault Refusal :=
  (s.withDec Decoder.reset).conclude { code := .ok }

/-- FSTAT (R112): `rx_state` and `rx_len`, nothing written. -/
def execFstat (s : State) : Host.Outcome State Fault Refusal :=
  s.conclude { code := .ok, state := some s.dec.rxState.code, length := some (rxLen s.dec) }

end Sys2Proof.Machine
end

