-- ==== Sys2Proof/Machine/PacketCodec.lean ====
section
/-! DEFINITION. The packet codec's requests: CSUM, PBUILD, PPARSE_CMD, PPARSE_RSP (41_packet_codec.md).
None reads or writes the decoder state (R28). -/

namespace Sys2Proof.Machine

/-- CSUM (R140). -/
def execCsum (P : Bytes) (s : State) : Host.Outcome State Fault Refusal :=
  s.conclude { code := .ok, csum := some (csumOf s.params P) }

/-- PBUILD (R142). -/
def execPbuild (op : Byte) (P : Bytes) (s : State) : Host.Outcome State Fault Refusal :=
  s.conclude (buildCommand s.params op P)

/-- PPARSE_CMD (R143). -/
def execPparseCmd (K : Bytes) (s : State) : Host.Outcome State Fault Refusal :=
  s.conclude (parseCommand s.params K)

/-- PPARSE_RSP (R144). -/
def execPparseRsp (W : StatusWidth) (K : Bytes) (s : State) : Host.Outcome State Fault Refusal :=
  s.conclude (parseResponse W K)

end Sys2Proof.Machine
end

