-- ==== Sys2Proof/Machine/Dispatch.lean ====
section
/-! DEFINITION. One arm per operation of the block (R63), each one direct call of its meaning. -/

namespace Sys2Proof.Machine

def exec (i : Instr) (s : State) : Host.Outcome State Fault Refusal :=
  match i with
  | .fenc F => Sys2Proof.Machine.execFenc F s
  | .fdecb b => Sys2Proof.Machine.execFdecb b s
  | .fdec S => Sys2Proof.Machine.execFdec S s
  | .frst => Sys2Proof.Machine.execFrst s
  | .fstat => Sys2Proof.Machine.execFstat s
  | .csum P => Sys2Proof.Machine.execCsum P s
  | .pbuild op P => Sys2Proof.Machine.execPbuild op P s
  | .pparseCmd K => Sys2Proof.Machine.execPparseCmd K s
  | .pparseRsp W K => Sys2Proof.Machine.execPparseRsp W K s

end Sys2Proof.Machine
end

