-- ==== Sys2Proof/Machine/Step.lean ====
section
/-! DEFINITION. One step of the block: the next input the caller has issued is performed wholly
(20_memory.md R45). -/

namespace Sys2Proof.Machine

/-- One step. An instance that violates R3 is refused. With nothing issued the block waits (R242, log
entry 2). A power-on reset resets the decoder (R240). A request with a legal word is performed (R63),
one with a reserved word is answered BAD_REQUEST (R205). -/
def step (s : State) : Host.Outcome State Fault Refusal :=
  if s.params.Valid then
    match s.pending with
    | .idle => .next s
    | .powerOnReset t => .next t.powerOn
    | .request r t =>
      match decode r with
      | .ok i => exec i t
      | .error _ => t.badRequest
  else .refused .invalidParams

/-- The state in which the next step performs the request whose word has the bits `w`: the block fetches
nothing (R51), so the caller presents the request (log entry 2). -/
def State.withFetchWord (s : State) (_nbits w : Nat) : State := s.presentFirst (requestOfBits w)

end Sys2Proof.Machine
end

