-- ==== Sys2Proof/Machine/Assembler.lean ====
section
/-! DEFINITION. The textual syntax for requests and pseudo-instructions (30_encoding.md R71, R72): a
reader of one line, and a writer. White space, the case of hexadecimal digits and an empty line are not
settled by R71: DESIGN CHOICE, safe, log entry 15. -/

namespace Sys2Proof.Machine

/-- What a line of the syntax stands for: a request (R71) or a pseudo-instruction (R72). -/
inductive AsmLine where
  | request (i : Instr)
  | send (op : Byte) (P : Bytes)
  | recv (W : StatusWidth) (S : Bytes)
deriving DecidableEq, Repr

/-- The words and marks of a line. -/
inductive Token where
  | word (cs : List Char)
  | openBracket
  | closeBracket
  | comma
deriving DecidableEq, Repr

/-- The word read so far, if any, before the tokens that follow it. -/
def flushWord (acc : List Char) (ts : List Token) : List Token :=
  if acc = [] then ts else .word acc.reverse :: ts

/-- The tokens of a line, `acc` holding the word being read, last character first; `;` starts a comment
(R71). -/
def tokens : List Char → List Char → List Token
  | [], acc => flushWord acc []
  | c :: cs, acc =>
    if c = ';' then flushWord acc []
    else if c = ' ' ∨ c = '\t' ∨ c = '\r' ∨ c = '\n' then flushWord acc (tokens cs [])
    else if c = '[' then flushWord acc (.openBracket :: tokens cs [])
    else if c = ']' then flushWord acc (.closeBracket :: tokens cs [])
    else if c = ',' then flushWord acc (.comma :: tokens cs [])
    else tokens cs (c :: acc)

/-- The hexadecimal digits, in order of value. -/
def hexDigits : List Char :=
  ['0', '1', '2', '3', '4', '5', '6', '7', '8', '9', 'A', 'B', 'C', 'D', 'E', 'F']

/-- The value of a hexadecimal digit, in either case. -/
def hexValue (c : Char) : Option Nat :=
  match hexDigits.idxOf? c with
  | some n => some n
  | none => ['a', 'b', 'c', 'd', 'e', 'f'].idxOf? c |>.map (· + 10)

/-- "A byte is two hexadecimal digits" (R71). -/
def readByte : List Char → Option Byte
  | [h, l] =>
    match hexValue h, hexValue l with
    | some x, some y => some (BitVec.ofNat 8 (16 * x + y))
    | _, _ => none
  | _ => none

/-- Bytes up to the closing bracket, which must end the line. -/
def readRest : List Token → Option Bytes
  | [.closeBracket] => some []
  | .word w :: ts =>
    match readByte w, readRest ts with
    | some b, some bs => some (b :: bs)
    | _, _ => none
  | _ => none

/-- "A byte sequence is bytes in brackets separated by spaces" (R71). -/
def readBytes : List Token → Option Bytes
  | .openBracket :: ts => readRest ts
  | _ => none

/-- `op, [P]`. -/
def readOpBytes : List Token → Option (Byte × Bytes)
  | .word w :: .comma :: ts =>
    match readByte w, readBytes ts with
    | some op, some P => some (op, P)
    | _, _ => none
  | _ => none

/-- The operand of FDECB. -/
def readOneByte : List Token → Option Byte
  | [.word w] => readByte w
  | _ => none

/-- No operand. -/
def readNothing {α : Type} (x : α) : List Token → Option α
  | [] => some x
  | _ => none

/-- The operands that follow a mnemonic (R71, R72); `PPARSE_RSP` and `RECV` without a suffix mean `W = 4`.
-/
def readOperands (m : String) (ts : List Token) : Option AsmLine :=
  if m = "FENC" then (readBytes ts).map fun F => .request (.fenc F)
  else if m = "FDECB" then (readOneByte ts).map fun b => .request (.fdecb b)
  else if m = "FDEC" then (readBytes ts).map fun S => .request (.fdec S)
  else if m = "FRST" then readNothing (.request .frst) ts
  else if m = "FSTAT" then readNothing (.request .fstat) ts
  else if m = "CSUM" then (readBytes ts).map fun P => .request (.csum P)
  else if m = "PBUILD" then (readOpBytes ts).map fun a => .request (.pbuild a.1 a.2)
  else if m = "PPARSE_CMD" then (readBytes ts).map fun K => .request (.pparseCmd K)
  else if m = "PPARSE_RSP.S2" then (readBytes ts).map fun K => .request (.pparseRsp .s2 K)
  else if m = "PPARSE_RSP.S4" then (readBytes ts).map fun K => .request (.pparseRsp .s4 K)
  else if m = "PPARSE_RSP" then (readBytes ts).map fun K => .request (.pparseRsp .s4 K)
  else if m = "SEND" then (readOpBytes ts).map fun a => .send a.1 a.2
  else if m = "RECV.S2" then (readBytes ts).map fun S => .recv .s2 S
  else if m = "RECV.S4" then (readBytes ts).map fun S => .recv .s4 S
  else if m = "RECV" then (readBytes ts).map fun S => .recv .s4 S
  else none

/-- One line of the syntax. -/
def readLine (line : List Char) : Option AsmLine :=
  match tokens line [] with
  | .word m :: ts => readOperands (String.ofList m) ts
  | _ => none

/-- The digit of a value below 16. -/
def hexDigit (n : Nat) : Char := hexDigits.getD n '0'

/-- A byte as two hexadecimal digits. -/
def writeByte (b : Byte) : List Char := [hexDigit (b.toNat / 16), hexDigit (b.toNat % 16)]

/-- Bytes up to the closing bracket, a space before each but the first. -/
def writeRest : Bytes → List Char
  | [] => [']']
  | b :: bs => ' ' :: writeByte b ++ writeRest bs

/-- A byte sequence in brackets. -/
def writeBytes : Bytes → List Char
  | [] => ['[', ']']
  | b :: bs => '[' :: writeByte b ++ writeRest bs

/-- A mnemonic, a space and its operands. -/
def writeWith (m : String) (operands : List Char) : List Char := m.toList ++ ' ' :: operands

/-- `op, [P]`. -/
def writeOpBytes (op : Byte) (P : Bytes) : List Char := writeByte op ++ ',' :: ' ' :: writeBytes P

/-- A request in the syntax of R71. -/
def writeRequest : Instr → List Char
  | .fenc F => writeWith "FENC" (writeBytes F)
  | .fdecb b => writeWith "FDECB" (writeByte b)
  | .fdec S => writeWith "FDEC" (writeBytes S)
  | .frst => "FRST".toList
  | .fstat => "FSTAT".toList
  | .csum P => writeWith "CSUM" (writeBytes P)
  | .pbuild op P => writeWith "PBUILD" (writeOpBytes op P)
  | .pparseCmd K => writeWith "PPARSE_CMD" (writeBytes K)
  | .pparseRsp .s2 K => writeWith "PPARSE_RSP.S2" (writeBytes K)
  | .pparseRsp .s4 K => writeWith "PPARSE_RSP.S4" (writeBytes K)

/-- A line in the syntax of R71 and R72. -/
def writeLine : AsmLine → List Char
  | .request i => writeRequest i
  | .send op P => writeWith "SEND" (writeOpBytes op P)
  | .recv .s2 S => writeWith "RECV.S2" (writeBytes S)
  | .recv .s4 S => writeWith "RECV.S4" (writeBytes S)

end Sys2Proof.Machine
end

