-- ==== Sys2Proof/Machine/Pseudo.lean ====
section
/-! DEFINITION. The pseudo-instructions SEND and RECV (30_encoding.md R72): the requests each expands to
"is what the block performs". -/

namespace Sys2Proof.Machine

/-- Perform one request of an expansion and go on with the state it leaves and its record. -/
def performThen {α : Type} (i : Instr) (s : State) (k : State → Option Result → Host.Outcome α Fault Refusal) :
    Host.Outcome α Fault Refusal :=
  match exec i s with
  | .next t => k t t.lastResult
  | .fault f => .fault f
  | .refused r => .refused r

/-- The `data` of a record with code OK: what the second request of an expansion is given. -/
def okData : Option Result → Option Bytes
  | some r => if r.code = .ok then r.data else none
  | none => none

/-- `SEND op, [P]` (R72): PBUILD, then FENC of its `data` if it returned OK. The pseudo-instruction's
result is the last request's record. -/
def runSend (op : Byte) (P : Bytes) (s : State) : Host.Outcome (State × Option Result) Fault Refusal :=
  performThen (.pbuild op P) s fun t r =>
    match okData r with
    | some K => performThen (.fenc K) t fun u q => .next (u, q)
    | none => .next (t, r)

/-- `RECV.Sw [S]` (R72): FDEC, then PPARSE_RSP.Sw of its `data` if it returned OK. The result is the last
request's record, plus the FDEC's `consumed`. -/
def runRecv (W : StatusWidth) (S : Bytes) (s : State) : Host.Outcome (State × Option Result) Fault Refusal :=
  performThen (.fdec S) s fun t r =>
    match okData r with
    | some F =>
      performThen (.pparseRsp W F) t fun u q =>
        .next (u, q.map fun x => { x with consumed := r.bind (·.consumed) })
    | none => .next (t, r)

end Sys2Proof.Machine
end

