-- ==== Sys2Proof/Machine/Caller.lean ====
section
/-! DEFINITION. How a caller uses the block (20_memory.md R53): requests one after another, a byte stream
fed by FDECB, a byte stream fed by FDEC with the unconsumed rest presented again (70_reset_and_hazards.md
R245). The caller is outside the block; these functions only issue requests. -/

namespace Sys2Proof.Machine

/-- Requests performed in the order they are issued (R45). -/
def runInstrs : List Instr → State → Host.Outcome State Fault Refusal
  | [], s => .next s
  | i :: is, s =>
    match exec i s with
    | .next t => runInstrs is t
    | .fault f => .fault f
    | .refused r => .refused r

/-- One FDECB per byte of `S` (R108). -/
def feedBytewise (S : Bytes) (s : State) : Host.Outcome State Fault Refusal :=
  runInstrs (S.map Instr.fdecb) s

/-- FDEC of `S`, then FDEC of the bytes it did not consume, and so on until none is left, in at most
`fuel` requests (R115, R245). `S.length + 1` requests are always enough. -/
def feedStream : Nat → Bytes → State → Host.Outcome State Fault Refusal
  | 0, _, s => .next s
  | fuel + 1, S, s =>
    match exec (.fdec S) s with
    | .next t =>
      match t.lastResult.bind (·.consumed) with
      | some k => if k < S.length then feedStream fuel (S.drop k) t else .next t
      | none => .next t
    | .fault f => .fault f
    | .refused r => .refused r

/-- What a caller of the decoder acts on: the outcomes that are not INCOMPLETE, with the content each
delivers, oldest first. -/
def reports (rs : List Result) : List (Code × Option Bytes) :=
  (rs.filter (fun r => r.code != .incomplete)).map (fun r => (r.code, r.data))

end Sys2Proof.Machine
end

