-- ==== Sys2Proof/Safety.lean ====
section
/-! DEFINITION. What counts as a legal state and as a safe run, in the terms the statements use: the
invariant of 10_state.md R27, valid parameters (00_scope.md R3), runs that never stop
(60_exceptions.md R211). -/

namespace Sys2Proof.Machine

/-- R27: (a) `HUNT` or `SKIP` implies an empty buffer; (b) the buffer is at most `MAX_FRAME_LEN` long. -/
abbrev Decoder.Inv (p : Params) (d : Decoder) : Prop :=
  (d.rxState = .hunt ∨ d.rxState = .skip → d.rxBuf = []) ∧ d.rxBuf.length ≤ p.maxFrameLen

/-- R27 of the decoder of a state. -/
abbrev State.Inv (s : State) : Prop := Decoder.Inv s.params s.dec

/-- A legal state of a valid instance: any state R241 lets a run start from. -/
abbrev State.Legal (s : State) : Prop := s.params.Valid ∧ s.Inv

/-- The requests among the inputs: each returns one record (R62); a power-on reset returns none (R240). -/
def requestCount (ins : List Input) : Nat :=
  (ins.filter fun i => i != .powerOnReset).length

/-- A run that performs `k` inputs without a stop. -/
def SafeFor (k : Nat) (s : State) : Prop := ∃ t, Sys2Proof.core.run k s = .next t

/-- The bytes of `F` that FENC escapes (R68's `k`). -/
def escapedCount (p : Params) (F : Bytes) : Nat :=
  (F.filter fun b => b == p.delim || b == p.esc).length

end Sys2Proof.Machine
end

