-- ==== Sys2Proof/Certificates/Slice0/Obligations.lean ====
section
/-! DEFINITION. The statements for the provers. Each says which rule of spec/ it formalises. A next state
is written as an update of the state before, so that it says what changes and that nothing else does. -/

section

open Sys2Proof Sys2Proof.Machine

/-! ### Encodings -/

/-- Encoding an operation and decoding the request gives the operation back, with every operand; and a
request that decodes to an operation has that operation's request word (30_encoding.md R60, R61, R63). -/
def Obligations.DecodeOfEncodeIsTheInstruction : Prop :=
  (∀ i : Instr, decode (encode i) = .ok i ∧ reservedWord (encode i).word = false) ∧
  (∀ (r : Request) (i : Instr), decode r = .ok i →
    (encode i).word = r.word ∧
    ((encode i).byteArg = r.byteArg ∨ ∀ b, decode { r with byteArg := b } = .ok i) ∧
    ((encode i).bytesArg = r.bytesArg ∨ ∀ S, decode { r with bytesArg := S } = .ok i))

/-- The map of R63: which word selects which operation with which operands, and that the legal words are
exactly 0x01 to 0x09 and 0x19. -/
def Obligations.RequestWordMap : Prop :=
  (∀ (b : Byte) (S : Bytes),
    decode ⟨0x01, b, S⟩ = .ok (.fenc S) ∧
    decode ⟨0x02, b, S⟩ = .ok (.fdecb b) ∧
    decode ⟨0x03, b, S⟩ = .ok (.fdec S) ∧
    decode ⟨0x04, b, S⟩ = .ok .frst ∧
    decode ⟨0x05, b, S⟩ = .ok .fstat ∧
    decode ⟨0x06, b, S⟩ = .ok (.csum S) ∧
    decode ⟨0x07, b, S⟩ = .ok (.pbuild b S) ∧
    decode ⟨0x08, b, S⟩ = .ok (.pparseCmd S) ∧
    decode ⟨0x09, b, S⟩ = .ok (.pparseRsp .s2 S) ∧
    decode ⟨0x19, b, S⟩ = .ok (.pparseRsp .s4 S)) ∧
  (∀ r : Request, (∃ i, decode r = .ok i) ↔
    r.word.toNat ∈ [0x01, 0x02, 0x03, 0x04, 0x05, 0x06, 0x07, 0x08, 0x09, 0x19])

/-- The decoder agrees with spec/opcode_table.json: a word decodes to an operation exactly when one row of
the table matches it, that row is the operation's, and no two rows match one word. -/
def Obligations.DecoderAgreesWithOpcodeTable : Prop :=
  (∀ (r : Request) (i : Instr), decode r = .ok i →
    ∀ row ∈ opcodeTable, row.matchesWord r.word = true ↔ row.mnemonic = i.mnemonic) ∧
  (∀ r : Request, (∃ e, decode r = .error e) ↔ ∀ row ∈ opcodeTable, row.matchesWord r.word = false) ∧
  opcodeTable.Pairwise fun a b => ∀ w : Byte, ¬ (a.matchesWord w = true ∧ b.matchesWord w = true)

/-- A few request words, bit by bit (R61, R63): sanity. -/
def Obligations.SampleRequestWordsDecode : Prop :=
  decode ⟨0b00000001#8, 0, [0x01]⟩ = .ok (.fenc [0x01]) ∧
  decode ⟨0b00000010#8, 0xC0, []⟩ = .ok (.fdecb 0xC0) ∧
  decode ⟨0b00000111#8, 0x08, [0x07]⟩ = .ok (.pbuild 0x08 [0x07]) ∧
  decode ⟨0b00001001#8, 0, [0x08]⟩ = .ok (.pparseRsp .s2 [0x08]) ∧
  decode ⟨0b00011001#8, 0, [0x08]⟩ = .ok (.pparseRsp .s4 [0x08]) ∧
  decode ⟨0b00010001#8, 0, []⟩ = .error .widthNotZero ∧
  decode ⟨0b00100001#8, 0, []⟩ = .error .rsvNotZero ∧
  decode ⟨0b00001010#8, 0, []⟩ = .error .opReserved

/-- R64 and R205: a request whose word is reserved returns BAD_REQUEST and changes nothing of the block,
whatever stands in its operands' places; every other word is legal and its operation is performed. -/
def Obligations.ReservedWordsReturnBadRequest : Prop :=
  ∀ (s : State) (r : Request) (rest : List Input),
    s.params.Valid → s.inputs = .request r :: rest →
    if r.word.toNat % 16 = 0 ∨ 10 ≤ r.word.toNat % 16 ∨ r.word.toNat / 32 ≠ 0 ∨
        (r.word.toNat / 16 % 2 = 1 ∧ r.word.toNat % 16 ≠ 9) then
      step s = .next { s with inputs := rest, results := s.results ++ [{ code := .badRequest }] }
    else ∃ i, decode r = .ok i ∧ step s = exec i { s with inputs := rest }

/-- The syntax of R71 and R72: reading what the writer wrote gives the line back, a comment after it is
ignored, and `PPARSE_RSP` and `RECV` without a suffix mean `W = 4`. -/
def Obligations.SyntaxReadsWhatItWrites : Prop :=
  (∀ l : AsmLine, readLine (writeLine l) = some l) ∧
  (∀ (l : AsmLine) (cs : List Char), readLine (writeLine l ++ ';' :: cs) = some l) ∧
  (∀ K : Bytes, readLine (writeWith "PPARSE_RSP" (writeBytes K)) = some (.request (.pparseRsp .s4 K))) ∧
  (∀ S : Bytes, readLine (writeWith "RECV" (writeBytes S)) = some (.recv .s4 S))

/-! ### The step -/

/-- When the request next in line decodes to `i`, the step performs `i` on the state with that input
taken (R45, R60). -/
def Obligations.StepPerformsTheDecodedRequest : Prop :=
  ∀ (s : State) (r : Request) (rest : List Input) (i : Instr),
    s.params.Valid → s.inputs = .request r :: rest → decode r = .ok i →
    step s = exec i { s with inputs := rest }

/-- With nothing issued the block waits for a request (R242). That such a step leaves the state as it is
is the model's choice (log entry 2). -/
def Obligations.StepWithNothingIssuedWaits : Prop :=
  ∀ s : State, s.params.Valid → s.inputs = [] → step s = .next s

/-- A step is refused exactly for an instance whose parameters violate one of (a) to (d) of R3. R3 says
that a model refuses such an instance; that `step` refuses it, on every step, an idle step and a power-on
reset included, is the model's choice (log entry 7). -/
def Obligations.InvalidParametersAreRefused : Prop :=
  ∀ s : State, step s = .refused .invalidParams ↔
    (s.params.delim = s.params.esc ∨
     s.params.escDelimCode = s.params.escEscCode ∨
     s.params.escDelimCode = s.params.delim ∨ s.params.escDelimCode = s.params.esc ∨
     s.params.escEscCode = s.params.delim ∨ s.params.escEscCode = s.params.esc ∨
     ¬ 1 ≤ s.params.maxFrameLen)

/-- The power-on reset and FRST (request word 0x04) both leave `HUNT` with an empty buffer, whatever the
decoder held, and no parameter changes; the reset returns no record, FRST returns OK (R240, R111). That a
power-on reset stands in the input list, between requests, and leaves the inputs after it in place, as the
first clause says, is the model's choice (log entries 2 and 9). -/
def Obligations.PowerOnResetAndFrstResetTheDecoder : Prop :=
  (∀ (s : State) (rest : List Input), s.params.Valid → s.inputs = .powerOnReset :: rest →
    step s = .next { s with inputs := rest, dec := ⟨.hunt, []⟩ }) ∧
  (∀ s : State, exec .frst s =
    .next { s with dec := ⟨.hunt, []⟩, results := s.results ++ [{ code := .ok }] }) ∧
  (∀ (b : Byte) (S : Bytes), decode ⟨0x04, b, S⟩ = .ok .frst)

/-- R30: after reset `rx_state` is HUNT, whose value is 0, `rx_buf` is empty and `rx_len` is 0. -/
def Obligations.ResetStateIsHuntWithEmptyBuffer : Prop :=
  State.reset.dec.rxState = .hunt ∧ State.reset.dec.rxState.code = 0#2 ∧
  State.reset.dec.rxBuf = [] ∧ rxLen State.reset.dec = 0

/-- The instance the model is reset as: the byte values R2 decides, parameters that R3 admits, a legal
decoder state; nothing issued and nothing returned, which is the model's choice (log entries 2 to 5). -/
def Obligations.ResetInstanceIsTheDefaultAndLegal : Prop :=
  State.reset.params.delim = 0xC0 ∧ State.reset.params.esc = 0xDB ∧
  State.reset.params.escDelimCode = 0xDC ∧ State.reset.params.escEscCode = 0xDD ∧
  State.reset.Legal ∧ State.reset.inputs = [] ∧ State.reset.results = []

/-! ### All requests -/

/-- Every request completes with one record, and none changes a parameter or an input; no step changes a
parameter (R2, R29, R62). -/
def Obligations.EveryRequestReturnsOneRecordAndKeepsParameters : Prop :=
  (∀ (i : Instr) (s : State), ∃ d r,
    exec i s = .next { s with dec := d, results := s.results ++ [r] }) ∧
  (∀ s t : State, step s = .next t → t.params = s.params)

/-- Which operations read and write the decoder state, row by row of R28's table. -/
def Obligations.DecoderAccessByOperation : Prop :=
  (∀ (i : Instr) (s : State) (d : Decoder),
    i.mnemonic ∈ ["FENC", "CSUM", "PBUILD", "PPARSE_CMD", "PPARSE_RSP"] →
    ∃ r, exec i s = .next { s with results := s.results ++ [r] } ∧
      exec i { s with dec := d } = .next { s with dec := d, results := s.results ++ [r] }) ∧
  (∀ (s : State) (d : Decoder), ∃ t, exec .frst s = .next t ∧ exec .frst { s with dec := d } = .next t ∧
    t.dec = State.reset.dec) ∧
  (∀ s : State, ∃ r, exec .fstat s = .next { s with results := s.results ++ [r] }) ∧
  (∃ (s : State) (d : Decoder) (t u : State), exec .fstat s = .next t ∧
    exec .fstat { s with dec := d } = .next u ∧ t.results ≠ u.results) ∧
  (∃ (b : Byte) (s : State) (d : Decoder) (t u : State), exec (.fdecb b) s = .next t ∧
    exec (.fdecb b) { s with dec := d } = .next u ∧ t.results ≠ u.results ∧ t.dec ≠ s.dec) ∧
  (∃ (S : Bytes) (s : State) (d : Decoder) (t u : State), exec (.fdec S) s = .next t ∧
    exec (.fdec S) { s with dec := d } = .next u ∧ t.results ≠ u.results ∧ t.dec ≠ s.dec) ∧
  (∀ (s : State) (r : Request) (rest : List Input) (e : Reject), s.params.Valid →
    s.inputs = .request r :: rest → decode r = .error e →
    ∃ q, ∀ d, step { s with dec := d } =
      .next { s with dec := d, inputs := rest, results := s.results ++ [q] })

/-- No request reads a record returned before it or a request issued after it: with other records and
other inputs in their places it returns the same record and leaves the same decoder (R20, R23, R45). -/
def Obligations.OtherRequestsAreNeverRead : Prop :=
  ∀ (i : Instr) (s : State) (rs : List Result) (ins : List Input), ∃ d r,
    exec i s = .next { s with dec := d, results := s.results ++ [r] } ∧
    exec i { s with results := rs, inputs := ins } =
      .next { s with dec := d, results := rs ++ [r], inputs := ins }

/-- R47: FENC, CSUM, PBUILD, PPARSE_CMD, PPARSE_RSP and FSTAT change nothing of the block and return the
same record every time; a second FRST changes nothing; FDECB and FDEC may return another record when
repeated. -/
def Obligations.SideEffectsAndIdempotency : Prop :=
  (∀ (i : Instr) (s : State),
    i.mnemonic ∈ ["FENC", "CSUM", "PBUILD", "PPARSE_CMD", "PPARSE_RSP", "FSTAT"] →
    ∃ r, exec i s = .next { s with results := s.results ++ [r] } ∧
      exec i { s with results := s.results ++ [r] } = .next { s with results := s.results ++ [r] ++ [r] }) ∧
  (∀ s : State, ∃ t u, exec .frst s = .next t ∧ exec .frst t = .next u ∧
    t.dec = State.reset.dec ∧ u.dec = t.dec) ∧
  (∃ (b : Byte) (s t u : State) (q r : Result), exec (.fdecb b) s = .next t ∧ exec (.fdecb b) t = .next u ∧
    t.results = s.results ++ [q] ∧ u.results = s.results ++ [q, r] ∧ q ≠ r) ∧
  (∃ (S : Bytes) (s t u : State) (q r : Result), exec (.fdec S) s = .next t ∧ exec (.fdec S) t = .next u ∧
    t.results = s.results ++ [q] ∧ u.results = s.results ++ [q, r] ∧ q ≠ r)

/-- R62: which fields a result record has, by operation and outcome. -/
def Obligations.ResultFieldsPresentByOperationAndOutcome : Prop :=
  (∀ (i : Instr) (s : State), ∃ t r, exec i s = .next t ∧ t.results = s.results ++ [r] ∧
    (r.data.isSome ↔ i.mnemonic = "FENC" ∨ (i.mnemonic ∈ ["FDECB", "FDEC", "PBUILD"] ∧ r.code = .ok)) ∧
    (r.consumed.isSome ↔ i.mnemonic ∈ ["FDECB", "FDEC"]) ∧
    (i.mnemonic = "FDECB" → r.consumed = some 1) ∧
    (r.opcode.isSome ↔ i.mnemonic ∈ ["PPARSE_CMD", "PPARSE_RSP"] ∧ r.code = .ok) ∧
    (r.status.isSome ↔ i.mnemonic = "PPARSE_RSP" ∧ r.code = .ok) ∧
    (∀ K st, i = .pparseRsp .s2 K → r.status = some st → st.length = 2) ∧
    (∀ K st, i = .pparseRsp .s4 K → r.status = some st → st.length = 4) ∧
    (r.payload.isSome ↔ i.mnemonic ∈ ["PPARSE_CMD", "PPARSE_RSP"] ∧ r.code = .ok) ∧
    (r.checksum.isSome ↔ i.mnemonic = "PPARSE_CMD" ∧ r.code ∈ [.ok, .malChecksum]) ∧
    (r.csum.isSome ↔ i.mnemonic = "CSUM" ∨ (i.mnemonic = "PPARSE_CMD" ∧ r.code = .malChecksum)) ∧
    (r.state.isSome ↔ i.mnemonic = "FSTAT") ∧
    (r.length.isSome ↔ i.mnemonic = "FSTAT" ∨
      (i.mnemonic ∈ ["PPARSE_CMD", "PPARSE_RSP"] ∧ r.code = .malLength))) ∧
  (∀ s : State, s.badRequest =
    .next { s with results := s.results ++
      [⟨.badRequest, none, none, none, none, none, none, none, none, none⟩] })

/-- The codes of R200: their values, their classes by bits 7:4, the operations that return each, and the
state each error leaves. -/
def Obligations.ResultCodesByOperationAndStateLeft : Prop :=
  ([Code.ok, .incomplete, .ferrBadEscape, .ferrEscapeAtEnd, .ferrOversize, .malShort, .malLength,
    .malChecksum, .lengthOverflow, .badRequest].map Code.value =
      [0x00, 0x01, 0x10, 0x11, 0x12, 0x20, 0x21, 0x22, 0x30, 0x3F]) ∧
  (∀ c : Code, classOfValue c.value =
    if c = .ok ∨ c = .incomplete then some .normal
    else if c = .ferrBadEscape ∨ c = .ferrEscapeAtEnd ∨ c = .ferrOversize then some .framingError
    else if c = .malShort ∨ c = .malLength ∨ c = .malChecksum then some .malformed
    else some .requestError) ∧
  (∀ (i : Instr) (s : State), ∃ t r, exec i s = .next t ∧ t.results = s.results ++ [r] ∧
    (r.code ∈ [.incomplete, .ferrBadEscape, .ferrEscapeAtEnd, .ferrOversize] →
      i.mnemonic ∈ ["FDECB", "FDEC"]) ∧
    (r.code ∈ [.malShort, .malLength] → i.mnemonic ∈ ["PPARSE_CMD", "PPARSE_RSP"] ∧ t.dec = s.dec) ∧
    (r.code = .malChecksum → i.mnemonic = "PPARSE_CMD" ∧ t.dec = s.dec) ∧
    (r.code = .lengthOverflow → i.mnemonic = "PBUILD" ∧ t.dec = s.dec) ∧
    (r.code = .ferrBadEscape → t.dec = ⟨.skip, []⟩) ∧
    (r.code = .ferrEscapeAtEnd → t.dec = ⟨.inFrame, []⟩) ∧
    (r.code = .ferrOversize → t.dec = ⟨.skip, []⟩) ∧
    r.code ≠ .badRequest)

/-! ### Frame encoding -/

/-- R7: of the five classes of bytes exactly one applies, the one its byte names. -/
def Obligations.ByteClassesAreDistinct : Prop :=
  ∀ (p : Params) (b : Byte), p.Valid →
    (cls p b = .delim ↔ b = p.delim) ∧ (cls p b = .esc ↔ b = p.esc) ∧
    (cls p b = .codeDelim ↔ b = p.escDelimCode) ∧ (cls p b = .codeEsc ↔ b = p.escEscCode) ∧
    (cls p b = .other ↔ b ≠ p.delim ∧ b ≠ p.esc ∧ b ≠ p.escDelimCode ∧ b ≠ p.escEscCode)

/-- R100 and R102: FENC (request word 0x01) returns OK with the content between two delimiters, each
`DELIM` and each `ESC` of it replaced by its escape sequence and every other byte unchanged, for content
of any length, and changes nothing of the block; the frame is `2 + len(F) + k` bytes long. -/
def Obligations.FencReturnsTheStuffedFrame : Prop :=
  (∀ (s : State) (F : Bytes), exec (.fenc F) s = .next { s with results := s.results ++
    [{ code := .ok,
       data := some ([s.params.delim] ++
         F.flatMap (fun b =>
           if b = s.params.delim then [s.params.esc, s.params.escDelimCode]
           else if b = s.params.esc then [s.params.esc, s.params.escEscCode] else [b]) ++
         [s.params.delim]) }] }) ∧
  (∀ s : State, exec (.fenc []) s = .next { s with results := s.results ++
    [{ code := .ok, data := some [s.params.delim, s.params.delim] }] }) ∧
  (∀ (s : State) (F : Bytes), ∃ X,
    exec (.fenc F) s = .next { s with results := s.results ++ [{ code := .ok, data := some X }] } ∧
    X.length = 2 + F.length + escapedCount s.params F) ∧
  (∀ (b : Byte) (F : Bytes), decode ⟨0x01, b, F⟩ = .ok (.fenc F))

/-- R68's frame lengths: between the two delimiters of a frame there is no raw `DELIM`, so a decoder
finds the end at the first one, and the frame of `F` is `2 + len(F) + k` bytes long, `k` the number of its
bytes that are escaped (R65, R102). -/
def Obligations.FrameEndsAtItsFirstRawDelimiter : Prop :=
  ∀ (s : State) (F : Bytes), s.params.Valid → ∃ body,
    exec (.fenc F) s = .next { s with results := s.results ++
      [{ code := .ok, data := some ([s.params.delim] ++ body ++ [s.params.delim]) }] } ∧
    s.params.delim ∉ body ∧
    ([s.params.delim] ++ body ++ [s.params.delim]).length = 2 + F.length + escapedCount s.params F

/-! ### The decoder step -/

/-- R103: FDECB in `HUNT`. -/
def Obligations.FdecbInHunt : Prop :=
  ∀ (s : State) (b : Byte), s.dec.rxState = .hunt →
    exec (.fdecb b) s = .next { s with
      dec := if b = s.params.delim then ⟨.inFrame, []⟩ else s.dec,
      results := s.results ++ [{ code := .incomplete, consumed := some 1 }] }

/-- R104: FDECB in `IN_FRAME`; `Append` is R107's. -/
def Obligations.FdecbInFrame : Prop :=
  ∀ (s : State) (b : Byte), s.dec.rxState = .inFrame →
    if b = s.params.delim then
      exec (.fdecb b) s = .next { s with
        dec := if s.dec.rxBuf = [] then s.dec else ⟨.hunt, []⟩,
        results := s.results ++ [{ code := .ok, data := some s.dec.rxBuf, consumed := some 1 }] }
    else if b = s.params.esc then
      exec (.fdecb b) s = .next { s with
        dec := ⟨.escape, s.dec.rxBuf⟩,
        results := s.results ++ [{ code := .incomplete, consumed := some 1 }] }
    else if s.dec.rxBuf.length = s.params.maxFrameLen then
      exec (.fdecb b) s = .next { s with
        dec := ⟨.skip, []⟩,
        results := s.results ++ [{ code := .ferrOversize, consumed := some 1 }] }
    else
      exec (.fdecb b) s = .next { s with
        dec := ⟨.inFrame, s.dec.rxBuf ++ [b]⟩,
        results := s.results ++ [{ code := .incomplete, consumed := some 1 }] }

/-- R105, with R101's `unesc`: FDECB in `ESCAPE`; `Append` is R107's. -/
def Obligations.FdecbInEscape : Prop :=
  ∀ (s : State) (b : Byte), s.params.Valid → s.dec.rxState = .escape →
    if b = s.params.escDelimCode ∨ b = s.params.escEscCode then
      if s.dec.rxBuf.length = s.params.maxFrameLen then
        exec (.fdecb b) s = .next { s with
          dec := ⟨.skip, []⟩,
          results := s.results ++ [{ code := .ferrOversize, consumed := some 1 }] }
      else
        exec (.fdecb b) s = .next { s with
          dec := ⟨.inFrame, s.dec.rxBuf ++
            [if b = s.params.escDelimCode then s.params.delim else s.params.esc]⟩,
          results := s.results ++ [{ code := .incomplete, consumed := some 1 }] }
    else if b = s.params.delim then
      exec (.fdecb b) s = .next { s with
        dec := ⟨.inFrame, []⟩,
        results := s.results ++ [{ code := .ferrEscapeAtEnd, consumed := some 1 }] }
    else
      exec (.fdecb b) s = .next { s with
        dec := ⟨.skip, []⟩,
        results := s.results ++ [{ code := .ferrBadEscape, consumed := some 1 }] }

/-- R106: FDECB in `SKIP`; the buffer is empty there by R27. -/
def Obligations.FdecbInSkip : Prop :=
  ∀ (s : State) (b : Byte), s.Inv → s.dec.rxState = .skip →
    exec (.fdecb b) s = .next { s with
      dec := if b = s.params.delim then ⟨.inFrame, []⟩ else ⟨.skip, []⟩,
      results := s.results ++ [{ code := .incomplete, consumed := some 1 }] }

/-- R107: the maximum counts decoded content. A content of exactly `MAX_FRAME_LEN` bytes is delivered,
however many wire bytes it takes; the byte that would make it one longer raises FERR_OVERSIZE, in
`IN_FRAME` and in `ESCAPE` alike, and the decoder skips. -/
def Obligations.OversizeIsRaisedOnTheByteBeyondTheMaximum : Prop :=
  ∀ (s : State) (v : Byte), s.params.Valid → s.dec.rxState = .inFrame →
    s.dec.rxBuf.length ≤ s.params.maxFrameLen →
    (∃ t r, exec (.fdec (stuff s.params [v])) s = .next t ∧ t.results = s.results ++ [r] ∧
      (s.dec.rxBuf.length = s.params.maxFrameLen → r.code = .ferrOversize ∧ t.dec = ⟨.skip, []⟩) ∧
      (s.dec.rxBuf.length < s.params.maxFrameLen → r.code = .incomplete ∧
        t.dec = ⟨.inFrame, s.dec.rxBuf ++ [v]⟩)) ∧
    (∀ F, s.dec.rxBuf = [] → F.length = s.params.maxFrameLen →
      ∃ t, exec (.fdec (stuff s.params F ++ [s.params.delim])) s = .next t ∧
        t.dec = ⟨.hunt, []⟩ ∧
        t.results = s.results ++
          [{ code := .ok, data := some F, consumed := some ((stuff s.params F).length + 1) }])

/-! ### FDEC and streams -/

/-- R110: FDEC (request word 0x03) is FDECB applied to the bytes in order up to the first outcome that is
not INCOMPLETE. It leaves the decoder those FDECBs leave, reports the outcome they report and counts the
bytes up to it; with no such outcome it consumes every byte; no byte after `consumed` has any effect. -/
def Obligations.FdecIsFdecbUpToTheFirstOutcome : Prop :=
  (∀ (s : State) (S : Bytes), ∃ t r k u,
    exec (.fdec S) s = .next t ∧
    t = { s with dec := t.dec, results := s.results ++ [r] } ∧
    r = { code := r.code, data := r.data, consumed := some k } ∧
    k ≤ S.length ∧
    feedBytewise (S.take k) s = .next u ∧ u.dec = t.dec ∧
    reports (u.results.drop s.results.length) = reports [r] ∧
    (r.code = .incomplete → k = S.length) ∧
    (r.code ≠ .incomplete → 0 < k ∧ ∃ v, feedBytewise (S.take (k - 1)) s = .next v ∧
      reports (v.results.drop s.results.length) = [])) ∧
  (∀ (b : Byte) (S : Bytes), decode ⟨0x03, b, S⟩ = .ok (.fdec S))

/-- R115: feeding a stream in two chunks, the unconsumed rest of the first before the second, gives the
same outcomes and the same end state as feeding it byte by byte; an FDEC that ends INCOMPLETE has consumed
all its bytes, another has consumed the bytes up to the one that produced its outcome. -/
def Obligations.ChunksAndBytesGiveTheSameOutcomes : Prop :=
  ∀ (s : State) (S₁ S₂ : Bytes), ∃ t r k u v w,
    exec (.fdec S₁) s = .next t ∧ t.results = s.results ++ [r] ∧ r.consumed = some k ∧
    (r.code = .incomplete → k = S₁.length) ∧
    feedBytewise (S₁.take k) s = .next w ∧ w.dec = t.dec ∧
    (r.code ≠ .incomplete → 0 < k ∧ ∃ x, feedBytewise (S₁.take (k - 1)) s = .next x ∧
      reports x.results = reports s.results ∧ reports w.results = reports s.results ++ [(r.code, r.data)]) ∧
    feedStream (S₁.length + S₂.length + 1) (S₁.drop k ++ S₂) t = .next u ∧
    feedBytewise (S₁ ++ S₂) s = .next v ∧
    u.dec = v.dec ∧ reports u.results = reports v.results

/-- R114: FDEC of FENC's frame of `F`, from `HUNT`, returns OK with `F` and has consumed the whole frame
when `F` is at most `MAX_FRAME_LEN` long, and leaves `HUNT`, or `IN_FRAME` when `F` is empty; for a longer
`F` it returns FERR_OVERSIZE. -/
def Obligations.FrameRoundTrip : Prop :=
  ∀ (s : State) (F : Bytes), s.params.Valid → s.dec.rxState = .hunt → ∃ X,
    exec (.fenc F) s = .next { s with results := s.results ++ [{ code := .ok, data := some X }] } ∧
    (F.length ≤ s.params.maxFrameLen →
      exec (.fdec X) s = .next { s with
        dec := if F = [] then ⟨.inFrame, []⟩ else ⟨.hunt, []⟩,
        results := s.results ++ [{ code := .ok, data := some F, consumed := some X.length }] }) ∧
    (s.params.maxFrameLen < F.length → ∃ t r, exec (.fdec X) s = .next t ∧
      t.results = s.results ++ [r] ∧ r.code = .ferrOversize)

/-- R116: where a frame `X` of non-empty `F` leaves a decoder that was in any state, and what it reports;
after a stale partial frame a second frame is delivered. After FRST nothing is lost. -/
def Obligations.ResynchronisationAfterAnyState : Prop :=
  ∀ (s : State) (F G : Bytes), s.Legal →
    F ≠ [] → F.length ≤ s.params.maxFrameLen → G ≠ [] → G.length ≤ s.params.maxFrameLen →
    (s.dec.rxState = .hunt ∨ s.dec.rxState = .skip →
      ∃ t, feedBytewise (frame s.params F) s = .next t ∧ t.dec = ⟨.hunt, []⟩ ∧
        reports t.results = reports s.results ++ [(.ok, some F)]) ∧
    (s.dec.rxState = .inFrame → s.dec.rxBuf = [] →
      ∃ t, feedBytewise (frame s.params F) s = .next t ∧ t.dec = ⟨.hunt, []⟩ ∧
        reports t.results = reports s.results ++ [(.ok, some []), (.ok, some F)]) ∧
    (s.dec.rxState = .escape →
      ∃ t, feedBytewise (frame s.params F) s = .next t ∧ t.dec = ⟨.hunt, []⟩ ∧
        reports t.results = reports s.results ++ [(.ferrEscapeAtEnd, none), (.ok, some F)]) ∧
    (s.dec.rxState = .inFrame → s.dec.rxBuf ≠ [] →
      ∃ t u, feedBytewise (frame s.params F) s = .next t ∧ t.dec = ⟨.inFrame, []⟩ ∧
        reports t.results = reports s.results ++ [(.ok, some s.dec.rxBuf)] ∧
        feedBytewise (frame s.params G) t = .next u ∧ u.dec = ⟨.hunt, []⟩ ∧
        reports u.results = reports t.results ++ [(.ok, some []), (.ok, some G)]) ∧
    (∃ t u, exec .frst s = .next t ∧ feedBytewise (frame s.params F) t = .next u ∧
      u.dec = ⟨.hunt, []⟩ ∧ reports u.results = reports t.results ++ [(.ok, some F)])

/-- R117: in `HUNT` and `SKIP` only `DELIM` changes the state and no byte is appended; bytes without a
`DELIM` leave the decoder as it is and produce only INCOMPLETE. -/
def Obligations.BytesOutsideFramesAreDiscarded : Prop :=
  ∀ s : State, s.Inv → s.dec.rxState = .hunt ∨ s.dec.rxState = .skip →
    (∀ S : Bytes, s.params.delim ∉ S →
      exec (.fdec S) s = .next { s with
        results := s.results ++ [{ code := .incomplete, consumed := some S.length }] } ∧
      ∃ t, feedBytewise S s = .next t ∧ t.dec = s.dec ∧ reports t.results = reports s.results) ∧
    (∀ b : Byte, ∃ t, exec (.fdecb b) s = .next t ∧ t.dec.rxBuf = [] ∧
      (t.dec.rxState ≠ s.dec.rxState → b = s.params.delim))

/-- R113: after any FERR_* outcome the decoder is in `SKIP` or `IN_FRAME` with an empty buffer, and every
later request completes: no outcome stops the block. -/
def Obligations.FramingErrorsAreNeverFatal : Prop :=
  ∀ (i : Instr) (s : State), ∃ t r, exec i s = .next t ∧ t.results = s.results ++ [r] ∧
    (classOfValue r.code.value = some .framingError →
      (t.dec.rxState = .skip ∨ t.dec.rxState = .inFrame) ∧ t.dec.rxBuf = []) ∧
    ∀ j : Instr, ∃ u, exec j t = .next u

/-- R112 with R24's encoding: FSTAT (request word 0x05) returns OK with `rx_state` and `rx_len` and
changes nothing of the block; under R27 the length is 0 whenever the state is 0 or 3. -/
def Obligations.FstatReportsTheDecoder : Prop :=
  (∀ s : State, exec .fstat s = .next { s with results := s.results ++
    [{ code := .ok,
       state := some (match s.dec.rxState with
         | .hunt => 0#2
         | .inFrame => 1#2
         | .escape => 2#2
         | .skip => 3#2),
       length := some s.dec.rxBuf.length }] }) ∧
  (∀ s : State, s.Inv → ∃ t r, exec .fstat s = .next t ∧ t.results = s.results ++ [r] ∧
    (r.state = some 0#2 ∨ r.state = some 3#2 → r.length = some 0)) ∧
  (∀ (b : Byte) (S : Bytes), decode ⟨0x05, b, S⟩ = .ok .fstat)

/-! ### Invariants and runs -/

/-- R27: what a step leaves of a decoder that is empty in `HUNT` and `SKIP` and at most `MAX_FRAME_LEN`
long is so again, it is so at reset, and in `IN_FRAME` and `ESCAPE` every length up to `MAX_FRAME_LEN`
occurs. -/
def Obligations.DecoderInvariantIsKeptByEveryStep : Prop :=
  (∀ s t : State, s.Inv → step s = .next t → t.Inv) ∧
  State.reset.Inv ∧
  (∀ (p : Params) (n : Nat), p.Valid → n ≤ p.maxFrameLen →
    ∃ S t S' t', exec (.fdec S) { State.reset with params := p } = .next t ∧
      t.dec.rxState = .inFrame ∧ t.dec.rxBuf.length = n ∧
      exec (.fdec S') { State.reset with params := p } = .next t' ∧
      t'.dec.rxState = .escape ∧ t'.dec.rxBuf.length = n)

/-- The decoder invariant at reset (R27, R30). -/
def Obligations.DecoderInvariantHoldsAtReset : Prop := State.reset.Inv

/-- From a legal state no run stops, whatever is issued, and after as many steps as there are inputs every
request has returned its one record, in a legal state (R62, R211, R250). That a run goes on past its last
input, each further step changing nothing, and that a power-on reset drops no input after it, so that the
count of records is that of all the requests, are the model's choices (log entries 2 and 9). -/
def Obligations.RunsPerformEveryInputAndNeverStop : Prop :=
  ∀ s : State, s.Legal →
    (∀ k, SafeFor k s) ∧
    ∃ t, Sys2Proof.core.run s.inputs.length s = .next t ∧ t.inputs = [] ∧ t.Legal ∧
      t.params = s.params ∧ t.results.length = s.results.length + requestCount s.inputs

/-- R45, R48: a run performs the requests issued wholly, one after another, in issue order: it leaves what
performing the operations in that order leaves, record by record, with the later inputs untouched. That
issued requests stand in a list is the model's choice (log entry 2). -/
def Obligations.RunPerformsRequestsInIssueOrder : Prop :=
  ∀ (s : State) (is : List Instr) (rest : List Input), s.params.Valid →
    s.inputs = is.map (fun i => .request (encode i)) ++ rest →
    ∃ t, runInstrs is { s with inputs := [] } = .next t ∧
      t.results.length = s.results.length + is.length ∧
      Sys2Proof.core.run is.length s = .next { t with inputs := rest }

/-- What FRST is for (R111, R243): whatever requests came before it, the requests after it return the same
records and leave the same decoder state. -/
def Obligations.FrstForgetsWhatCameBefore : Prop :=
  ∀ (s : State) (before after : List Instr), ∃ t u v,
    runInstrs before s = .next t ∧
    runInstrs (.frst :: after) s = .next u ∧ runInstrs (.frst :: after) t = .next v ∧
    v.dec = u.dec ∧ ∃ rs, rs.length = after.length + 1 ∧
      u.results = s.results ++ rs ∧ v.results = t.results ++ rs

/-! ### Checksum and packets -/

/-- R140: CSUM (request word 0x06) folds the payload into the seed by exclusive or, and changes nothing of
the block; of the empty payload it is the seed. -/
def Obligations.CsumIsTheXorFold : Prop :=
  (∀ (s : State) (P : Bytes), exec (.csum P) s = .next { s with results := s.results ++
    [{ code := .ok, csum := some (P.foldl (fun c b => c ^^^ b) s.params.checksumSeed) }] }) ∧
  (∀ s : State, exec (.csum []) s = .next { s with results := s.results ++
    [{ code := .ok, csum := some s.params.checksumSeed }] }) ∧
  (∀ (b : Byte) (P : Bytes), decode ⟨0x06, b, P⟩ = .ok (.csum P))

/-- R145: the laws of the checksum over `X(P)`, the exclusive or of all bytes of `P`. -/
def Obligations.CsumXorLaws : Prop :=
  ∀ (p : Params) (P Q : Bytes),
    csumOf p P = p.checksumSeed ^^^ xorFold 0 P ∧ xorFold 0 [] = 0 ∧
    csumOf p (P ++ Q) = csumOf p P ^^^ xorFold 0 Q ∧
    (P.Perm Q → csumOf p P = csumOf p Q) ∧
    (∀ (b : Byte) (A B C : Bytes), csumOf p (A ++ [b] ++ B ++ [b] ++ C) = csumOf p (A ++ B ++ C)) ∧
    csumOf p P ^^^ csumOf p Q = xorFold 0 P ^^^ xorFold 0 Q

/-- R142 with R141: PBUILD (request word 0x07) returns the opcode, the payload's length in two bytes, low
byte first, the payload and the checksum in four bytes, low byte first and the others 0; LENGTH_OVERFLOW
and no data above 65535 bytes; it changes nothing of the block. -/
def Obligations.PbuildReturnsTheCommandPacket : Prop :=
  (∀ (s : State) (op : Byte) (P : Bytes), exec (.pbuild op P) s = .next { s with results := s.results ++
    [if P.length ≤ 65535 then
       { code := .ok,
         data := some ([op, BitVec.ofNat 8 (P.length % 256), BitVec.ofNat 8 (P.length / 256)] ++ P ++
           [P.foldl (fun c b => c ^^^ b) s.params.checksumSeed, 0, 0, 0]) }
     else { code := .lengthOverflow }] }) ∧
  (∀ (op : Byte) (P : Bytes), decode ⟨0x07, op, P⟩ = .ok (.pbuild op P))

/-- R143: PPARSE_CMD (request word 0x08) answers MAL_SHORT below 3 bytes, MAL_LENGTH unless the length is
7 plus the declared one, MAL_CHECKSUM unless all 32 bits of the checksum field are the payload's checksum,
and else the fields; it changes nothing of the block. -/
def Obligations.PparseCmdChecksLengthThenChecksum : Prop :=
  (∀ (s : State) (K : Bytes),
    let n := (K.getD 1 0).toNat + 256 * (K.getD 2 0).toNat
    let P := (K.drop 3).take n
    let crx := (K.getD (3 + n) 0).toNat + 2 ^ 8 * (K.getD (4 + n) 0).toNat +
      2 ^ 16 * (K.getD (5 + n) 0).toNat + 2 ^ 24 * (K.getD (6 + n) 0).toNat
    let c := P.foldl (fun c b => c ^^^ b) s.params.checksumSeed
    exec (.pparseCmd K) s = .next { s with results := s.results ++
      [if K.length < 3 then { code := .malShort }
       else if K.length ≠ 7 + n then { code := .malLength, length := some n }
       else if crx ≠ c.toNat then
         { code := .malChecksum, checksum := some (BitVec.ofNat 32 crx), csum := some c }
       else { code := .ok, opcode := some (K.getD 0 0), payload := some P,
              checksum := some (BitVec.ofNat 32 crx) }] }) ∧
  (∀ (b : Byte) (K : Bytes), decode ⟨0x08, b, K⟩ = .ok (.pparseCmd K))

/-- R144: PPARSE_RSP (request words 0x09 for `W = 2`, 0x19 for `W = 4`) answers MAL_SHORT below 3 bytes,
MAL_LENGTH unless the length is 3 plus `W` plus the declared one, and else the opcode echo, the `W` status
bytes and the payload as they are; it checks no checksum and changes nothing of the block. -/
def Obligations.PparseRspChecksTheTotalLength : Prop :=
  (∀ (s : State) (W : StatusWidth) (K : Bytes),
    let w := match W with
      | .s2 => 2
      | .s4 => 4
    let n := (K.getD 1 0).toNat + 256 * (K.getD 2 0).toNat
    exec (.pparseRsp W K) s = .next { s with results := s.results ++
      [if K.length < 3 then { code := .malShort }
       else if K.length ≠ 3 + w + n then { code := .malLength, length := some n }
       else { code := .ok, opcode := some (K.getD 0 0), status := some ((K.drop 3).take w),
              payload := some (K.drop (3 + w)) }] }) ∧
  (∀ (b : Byte) (K : Bytes), decode ⟨0x09, b, K⟩ = .ok (.pparseRsp .s2 K) ∧
    decode ⟨0x19, b, K⟩ = .ok (.pparseRsp .s4 K))

/-- R146: one payload byte of a built packet changed is answered MAL_CHECKSUM; changes that leave the
exclusive or of the payload the same are not detected. -/
def Obligations.SingleByteChangesAreDetected : Prop :=
  ∀ (s : State) (op : Byte) (P : Bytes), P.length ≤ 65535 → ∃ K,
    exec (.pbuild op P) s = .next { s with results := s.results ++ [{ code := .ok, data := some K }] } ∧
    (∀ (i : Nat) (d : Byte), i < P.length → d ≠ 0 →
      csumOf s.params (P.set i (P.getD i 0 ^^^ d)) = csumOf s.params P ^^^ d ∧
      csumOf s.params P ^^^ d ≠ csumOf s.params P ∧
      ∃ r, exec (.pparseCmd (K.set (3 + i) (P.getD i 0 ^^^ d))) s =
          .next { s with results := s.results ++ [r] } ∧ r.code = .malChecksum) ∧
    (∀ Q : Bytes, Q.length = P.length → xorFold 0 Q = xorFold 0 P →
      ∃ r, exec (.pparseCmd (K.take 3 ++ Q ++ K.drop (3 + P.length))) s =
          .next { s with results := s.results ++ [r] } ∧ r.code = .ok ∧ r.payload = some Q)

/-- R147: PPARSE_CMD of what PBUILD built returns OK with the opcode, the payload and the checksum. -/
def Obligations.BuildParseRoundTrip : Prop :=
  ∀ (s : State) (op : Byte) (P : Bytes), P.length ≤ 65535 → ∃ K,
    exec (.pbuild op P) s = .next { s with results := s.results ++ [{ code := .ok, data := some K }] } ∧
    exec (.pparseCmd K) s = .next { s with results := s.results ++
      [{ code := .ok, opcode := some op, payload := some P,
         checksum := some ((csumOf s.params P).setWidth 32) }] }

/-- R150: a packet whose content fits `MAX_FRAME_LEN` survives FENC and FDEC from `HUNT`, and parses to
what it was built from: a command packet that PBUILD built, and a response packet under its width. One
that is longer is answered FERR_OVERSIZE. -/
def Obligations.PacketsSurviveTheFrame : Prop :=
  ∀ s : State, s.params.Valid → s.dec.rxState = .hunt →
    (∀ (op : Byte) (P K : Bytes),
      exec (.pbuild op P) s = .next { s with results := s.results ++ [{ code := .ok, data := some K }] } →
      7 + P.length ≤ s.params.maxFrameLen →
      ∃ X t, exec (.fenc K) s = .next { s with results := s.results ++ [{ code := .ok, data := some X }] } ∧
        exec (.fdec X) s = .next t ∧
        t.results = s.results ++ [{ code := .ok, data := some K, consumed := some X.length }] ∧
        ∃ c, exec (.pparseCmd K) t = .next { t with results := t.results ++
          [{ code := .ok, opcode := some op, payload := some P, checksum := some c }] }) ∧
    (∀ (W : StatusWidth) (op : Byte) (st P : Bytes),
      st.length = statusBytes W → P.length ≤ 65535 →
      (responsePacket op st P).length ≤ s.params.maxFrameLen →
      ∃ X t, exec (.fenc (responsePacket op st P)) s =
          .next { s with results := s.results ++ [{ code := .ok, data := some X }] } ∧
        exec (.fdec X) s = .next t ∧
        t.results = s.results ++
          [{ code := .ok, data := some (responsePacket op st P), consumed := some X.length }] ∧
        exec (.pparseRsp W (responsePacket op st P)) t = .next { t with results := t.results ++
          [{ code := .ok, opcode := some op, status := some st, payload := some P }] }) ∧
    (∀ K : Bytes, s.params.maxFrameLen < K.length →
      ∃ X t r, exec (.fenc K) s = .next { s with results := s.results ++ [{ code := .ok, data := some X }] } ∧
        exec (.fdec X) s = .next t ∧ t.results = s.results ++ [r] ∧ r.code = .ferrOversize)

/-- R151: a response is accepted under at most one width: PPARSE_RSP needs `5 + n` bytes under `W = 2` and
`7 + n` under `W = 4`, for the same declared `n`. -/
def Obligations.ResponseWidthsExcludeEachOther : Prop :=
  ∀ (s : State) (K : Bytes), ∃ r₂ r₄,
    exec (.pparseRsp .s2 K) s = .next { s with results := s.results ++ [r₂] } ∧
    exec (.pparseRsp .s4 K) s = .next { s with results := s.results ++ [r₄] } ∧
    (r₂.code = .ok ↔ K.length = 5 + ((K.getD 1 0).toNat + 256 * (K.getD 2 0).toNat)) ∧
    (r₄.code = .ok ↔ K.length = 7 + ((K.getD 1 0).toNat + 256 * (K.getD 2 0).toNat)) ∧
    ¬ (r₂.code = .ok ∧ r₄.code = .ok)

/-! ### Pseudo-instructions -/

/-- R72: SEND is PBUILD and, if that returned OK, FENC of its `data`; RECV is FDEC and, if that returned
OK, PPARSE_RSP of its `data`, with FDEC's `consumed` added. The result is the last request's record.
`RECV` alone is `RECV.S4`. -/
def Obligations.PseudoInstructionsExpandToRequests : Prop :=
  (∀ (op : Byte) (P : Bytes) (s : State), ∃ t r,
    exec (.pbuild op P) s = .next t ∧ t.results = s.results ++ [r] ∧
    if r.code = .ok then
      ∃ K u q, r.data = some K ∧ exec (.fenc K) t = .next u ∧ u.results = t.results ++ [q] ∧
        runSend op P s = .next (u, some q)
    else runSend op P s = .next (t, some r)) ∧
  (∀ (W : StatusWidth) (S : Bytes) (s : State), ∃ t r,
    exec (.fdec S) s = .next t ∧ t.results = s.results ++ [r] ∧
    if r.code = .ok then
      ∃ F u q, r.data = some F ∧ exec (.pparseRsp W F) t = .next u ∧ u.results = t.results ++ [q] ∧
        runRecv W S s = .next (u, some { q with consumed := r.consumed })
    else runRecv W S s = .next (t, some r)) ∧
  (∀ S : Bytes, readLine (writeWith "RECV" (writeBytes S)) = some (.recv .s4 S))

end
end

