-- ==== Sys2Proof/Laws/State.lean ====
section
/-! SUPPORT. One lemma per field per update of `State`, all true by definition. -/

namespace Sys2Proof.Machine

@[simp] theorem respond_params (s : State) (r : Result) : (s.respond r).params = s.params := rfl
@[simp] theorem respond_dec (s : State) (r : Result) : (s.respond r).dec = s.dec := rfl
@[simp] theorem respond_inputs (s : State) (r : Result) : (s.respond r).inputs = s.inputs := rfl
@[simp] theorem respond_results (s : State) (r : Result) :
    (s.respond r).results = s.results ++ [r] := rfl
@[simp] theorem respond_lastResult (s : State) (r : Result) :
    (s.respond r).lastResult = some r := by simp [State.lastResult]

@[simp] theorem withDec_params (s : State) (d : Decoder) : (s.withDec d).params = s.params := rfl
@[simp] theorem withDec_dec (s : State) (d : Decoder) : (s.withDec d).dec = d := rfl
@[simp] theorem withDec_inputs (s : State) (d : Decoder) : (s.withDec d).inputs = s.inputs := rfl
@[simp] theorem withDec_results (s : State) (d : Decoder) : (s.withDec d).results = s.results := rfl

@[simp] theorem powerOn_params (s : State) : s.powerOn.params = s.params := rfl
@[simp] theorem powerOn_dec (s : State) : s.powerOn.dec = Decoder.reset := rfl
@[simp] theorem powerOn_inputs (s : State) : s.powerOn.inputs = s.inputs := rfl
@[simp] theorem powerOn_results (s : State) : s.powerOn.results = s.results := rfl

@[simp] theorem presentFirst_params (s : State) (r : Request) :
    (s.presentFirst r).params = s.params := rfl
@[simp] theorem presentFirst_dec (s : State) (r : Request) : (s.presentFirst r).dec = s.dec := rfl
@[simp] theorem presentFirst_inputs (s : State) (r : Request) :
    (s.presentFirst r).inputs = .request r :: s.inputs := rfl
@[simp] theorem presentFirst_results (s : State) (r : Request) :
    (s.presentFirst r).results = s.results := rfl

@[simp] theorem reset_rxState : Decoder.reset.rxState = .hunt := rfl
@[simp] theorem reset_rxBuf : Decoder.reset.rxBuf = [] := rfl

end Sys2Proof.Machine
end

