-- ==== Sys2Proof/Laws/Ops.lean ====
section
/-! SUPPORT. One lemma per shared operation that says everything it can do, to be cited in its place. -/

namespace Sys2Proof.Machine

/-! ### Requests and steps -/

/-- Ending a request only appends its record. -/
theorem conclude_eq (s : State) (r : Result) :
    s.conclude r = .next { s with results := s.results ++ [r] } := rfl

/-- A reserved word only appends the record BAD_REQUEST. -/
theorem badRequest_eq (s : State) :
    s.badRequest = .next { s with results := s.results ++ [{ code := .badRequest }] } := rfl

/-- Everything a request can do: it writes the decoder and appends one record. -/
theorem exec_next (i : Instr) (s : State) :
    ∃ d r, exec i s = .next { s with dec := d, results := s.results ++ [r] } := by
  cases i <;> exact ⟨_, _, rfl⟩

/-- What a step finds to do is the head of the inputs. -/
theorem pending_cases (s : State) :
    (s.inputs = [] ∧ s.pending = .idle) ∨
    (∃ rest, s.inputs = .powerOnReset :: rest ∧ s.pending = .powerOnReset { s with inputs := rest }) ∨
    (∃ r rest, s.inputs = .request r :: rest ∧ s.pending = .request r { s with inputs := rest }) := by
  unfold State.pending
  rcases h : s.inputs with _ | ⟨i, rest⟩
  · exact .inl ⟨rfl, rfl⟩
  · cases i with
    | request r => exact .inr (.inr ⟨r, rest, rfl, rfl⟩)
    | powerOnReset => exact .inr (.inl ⟨rest, rfl, rfl⟩)

/-- Everything a step of a valid instance can do: wait, reset, perform a request, answer BAD_REQUEST. -/
theorem step_cases {s : State} (hv : s.params.Valid) :
    (s.inputs = [] ∧ step s = .next s) ∨
    (∃ rest, s.inputs = .powerOnReset :: rest ∧
      step s = .next { s with inputs := rest, dec := Decoder.reset }) ∨
    (∃ r rest i, s.inputs = .request r :: rest ∧ decode r = .ok i ∧
      step s = exec i { s with inputs := rest }) ∨
    (∃ r rest e, s.inputs = .request r :: rest ∧ decode r = .error e ∧
      step s = .next { s with inputs := rest, results := s.results ++ [{ code := .badRequest }] }) := by
  unfold step
  rw [if_pos hv]
  obtain ⟨h, hp⟩ | ⟨rest, h, hp⟩ | ⟨r, rest, h, hp⟩ := pending_cases s
  · exact .inl ⟨h, by rw [hp]⟩
  · exact .inr (.inl ⟨rest, h, by rw [hp]; rfl⟩)
  · rw [hp]
    rcases hd : decode r with e | i
    · exact .inr (.inr (.inr ⟨r, rest, e, h, hd, by simp [hd, badRequest_eq]⟩))
    · exact .inr (.inr (.inl ⟨r, rest, i, h, hd, by simp [hd]⟩))

/-! ### Bytes -/

/-- The class of `DELIM` (R7). -/
@[simp] theorem cls_delim (p : Params) : cls p p.delim = .delim := by simp [cls]

/-- A byte other than `DELIM` has another class than `D` (R7). -/
theorem cls_ne_delim {p : Params} {b : Byte} (h : b ≠ p.delim) : cls p b ≠ .delim := by
  unfold cls
  rw [if_neg h]
  repeat' split
  all_goals simp

/-- `stuff` goes through concatenation (R100). -/
theorem stuff_append (p : Params) (F G : Bytes) : stuff p (F ++ G) = stuff p F ++ stuff p G := by
  induction F with
  | nil => rfl
  | cons b F ih => simp [stuff, ih]

/-- `stuff` is the concatenation of the wire bytes of each content byte (R100). -/
theorem stuff_eq_flatMap (p : Params) (F : Bytes) : stuff p F = F.flatMap (stuffByte p) := by
  induction F with
  | nil => rfl
  | cons b F ih => simp [stuff, ih]

/-- The checksum's loop is a fold (R140). -/
theorem xorFold_eq_foldl (c : Byte) (P : Bytes) : xorFold c P = P.foldl (fun c b => c ^^^ b) c := by
  induction P generalizing c with
  | nil => rfl
  | cons b P ih => exact ih _

/-- The fold goes through concatenation (R145). -/
theorem xorFold_append (c : Byte) (P Q : Bytes) :
    xorFold c (P ++ Q) = xorFold (xorFold c P) Q := by
  induction P generalizing c with
  | nil => rfl
  | cons b P ih => exact ih (c ^^^ b)

/-- The start value of a fold comes out of it (R145). -/
theorem xorFold_start (c : Byte) (P : Bytes) : xorFold c P = c ^^^ xorFold 0 P := by
  induction P generalizing c with
  | nil => simp [xorFold]
  | cons b P ih =>
    have h := (ih b).symm
    simp only [xorFold]
    rw [ih (c ^^^ b), BitVec.xor_assoc]
    simpa using h

/-! ### The decoder -/

/-- Everything `Append` can do (R107). -/
theorem appendByte_cases (p : Params) (d : Decoder) (v : Byte) :
    (d.rxBuf.length = p.maxFrameLen ∧ appendByte p d v = (⟨.skip, []⟩, .oversize)) ∨
    (d.rxBuf.length ≠ p.maxFrameLen ∧
      appendByte p d v = (⟨.inFrame, d.rxBuf ++ [v]⟩, .incomplete)) := by
  unfold appendByte
  by_cases h : d.rxBuf.length = p.maxFrameLen
  · exact .inl ⟨h, by rw [if_pos h]⟩
  · exact .inr ⟨h, by rw [if_neg h]⟩

/-- Everything one `DecStep` can do (R103 to R107). -/
theorem decStep_cases (p : Params) (d : Decoder) (b : Byte) :
    decStep p d b = (d, .incomplete) ∧ (d.rxState = .hunt ∨ d.rxState = .skip) ∧ b ≠ p.delim ∨
    decStep p d b = (⟨.inFrame, []⟩, .incomplete) ∧ d.rxState = .hunt ∧ b = p.delim ∨
    decStep p d b = (⟨.inFrame, d.rxBuf⟩, .incomplete) ∧ d.rxState = .skip ∧ b = p.delim ∨
    decStep p d b = (d, .delivered []) ∧ d.rxState = .inFrame ∧ d.rxBuf = [] ∧ b = p.delim ∨
    decStep p d b = (⟨.hunt, []⟩, .delivered d.rxBuf) ∧ d.rxState = .inFrame ∧ d.rxBuf ≠ [] ∧
      b = p.delim ∨
    decStep p d b = (⟨.escape, d.rxBuf⟩, .incomplete) ∧ d.rxState = .inFrame ∧ b ≠ p.delim ∨
    (∃ v, decStep p d b = appendByte p d v ∧ (d.rxState = .inFrame ∨ d.rxState = .escape) ∧
      b ≠ p.delim) ∨
    decStep p d b = (⟨.inFrame, []⟩, .escapeAtEnd) ∧ d.rxState = .escape ∧ b = p.delim ∨
    decStep p d b = (⟨.skip, []⟩, .badEscape) ∧ d.rxState = .escape ∧ b ≠ p.delim := by
  by_cases hb : b = p.delim
  · subst hb
    rcases hs : d.rxState
    · simp [decStep, hs, decHunt]
    · by_cases he : d.rxBuf = [] <;> simp [decStep, hs, decInFrame, he]
    · simp [decStep, hs, decEscape, unesc]
    · simp [decStep, hs, decSkip]
  · have hc := cls_ne_delim (p := p) hb
    rcases hs : d.rxState <;> rcases hk : cls p b <;>
      first
        | exact absurd hk hc
        | simp [decStep, hs, decHunt, decSkip, decInFrame, decEscape, unesc, hk, hb]
          try exact .inr ⟨_, rfl⟩

/-- FDEC's loop over no bytes (R110). -/
@[simp] theorem decRun_nil (p : Params) (d : Decoder) : decRun p d [] = ⟨d, .incomplete, 0⟩ := rfl

/-- FDEC's loop goes on after INCOMPLETE (R110). -/
theorem decRun_cons_incomplete {p : Params} {d : Decoder} {b : Byte} (S : Bytes)
    (h : (decStep p d b).2 = .incomplete) :
    decRun p d (b :: S) =
      ⟨(decRun p (decStep p d b).1 S).dec, (decRun p (decStep p d b).1 S).outcome,
        (decRun p (decStep p d b).1 S).consumed + 1⟩ := by
  simp [decRun, h]

/-- FDEC's loop stops at the first other outcome (R110). -/
theorem decRun_cons_stop {p : Params} {d : Decoder} {b : Byte} (S : Bytes)
    (h : (decStep p d b).2 ≠ .incomplete) :
    decRun p d (b :: S) = ⟨(decStep p d b).1, (decStep p d b).2, 1⟩ := by
  simp [decRun, h]

/-- FDEC consumes no more than it is given (R110). -/
theorem decRun_consumed_le (p : Params) (d : Decoder) (S : Bytes) :
    (decRun p d S).consumed ≤ S.length := by
  induction S generalizing d with
  | nil => simp
  | cons b S ih =>
    by_cases h : (decStep p d b).2 = .incomplete
    · rw [decRun_cons_incomplete S h]
      simpa using ih (decStep p d b).1
    · rw [decRun_cons_stop S h]
      simp

/-- FDEC that ends INCOMPLETE has consumed everything (R115). -/
theorem decRun_consumed_of_incomplete {p : Params} {d : Decoder} {S : Bytes}
    (h : (decRun p d S).outcome = .incomplete) : (decRun p d S).consumed = S.length := by
  induction S generalizing d with
  | nil => rfl
  | cons b S ih =>
    by_cases hb : (decStep p d b).2 = .incomplete
    · rw [decRun_cons_incomplete S hb] at h ⊢
      simpa using ih h
    · rw [decRun_cons_stop S hb] at h
      exact absurd h hb

/-- Bytes after a part that ended INCOMPLETE are decoded from where that part left the decoder (R115). -/
theorem decRun_append_of_incomplete {p : Params} {d : Decoder} {S : Bytes} (T : Bytes)
    (h : (decRun p d S).outcome = .incomplete) :
    decRun p d (S ++ T) =
      ⟨(decRun p (decRun p d S).dec T).dec, (decRun p (decRun p d S).dec T).outcome,
        S.length + (decRun p (decRun p d S).dec T).consumed⟩ := by
  induction S generalizing d with
  | nil => simp
  | cons b S ih =>
    by_cases hb : (decStep p d b).2 = .incomplete
    · rw [decRun_cons_incomplete S hb] at h
      rw [List.cons_append, decRun_cons_incomplete (S ++ T) hb, ih h, decRun_cons_incomplete S hb]
      simp only [List.length_cons, DecRun.mk.injEq, true_and]
      omega
    · rw [decRun_cons_stop S hb] at h
      exact absurd h hb

/-- No byte after the one that produced an outcome has any effect (R110). -/
theorem decRun_append_of_stop {p : Params} {d : Decoder} {S : Bytes} (T : Bytes)
    (h : (decRun p d S).outcome ≠ .incomplete) : decRun p d (S ++ T) = decRun p d S := by
  induction S generalizing d with
  | nil => simp at h
  | cons b S ih =>
    by_cases hb : (decStep p d b).2 = .incomplete
    · rw [decRun_cons_incomplete S hb] at h ⊢
      rw [List.cons_append, decRun_cons_incomplete (S ++ T) hb, ih h]
    · rw [decRun_cons_stop S hb, List.cons_append, decRun_cons_stop _ hb]

/-! ### Fields -/

/-- The two bytes of a length field (R70). -/
theorem bytesLe16_ofNat {n : Nat} (h : n ≤ 65535) :
    bytesLe16 (BitVec.ofNat 16 n) = [BitVec.ofNat 8 (n % 256), BitVec.ofNat 8 (n / 256)] := by
  simp only [bytesLe16, List.cons.injEq, and_true]
  constructor
  · apply BitVec.eq_of_toNat_eq
    simp
  · apply BitVec.eq_of_toNat_eq
    simp [Nat.shiftRight_eq_div_pow]
    omega

/-- The four bytes of a checksum field (R141). -/
theorem bytesLe32_zext (c : Byte) : bytesLe32 (zext 32 c) = [c, 0, 0, 0] := by
  have h := c.isLt
  simp only [bytesLe32, zext, List.cons.injEq, and_true]
  refine ⟨?_, ?_, ?_, ?_⟩ <;>
    (apply BitVec.eq_of_toNat_eq; simp [Nat.shiftRight_eq_div_pow]) <;> omega

/-- A 32-bit field is its four bytes, the last in the highest place (R70). -/
theorem le32_eq_append (s : Bytes) (i : Nat) :
    le32 s i = byteAt s (i + 3) ++ (byteAt s (i + 2) ++ (byteAt s (i + 1) ++ byteAt s i)) := by
  unfold le32 zext
  generalize byteAt s i = a, byteAt s (i + 1) = b, byteAt s (i + 2) = c, byteAt s (i + 3) = d
  apply BitVec.eq_of_getLsbD_eq
  intro j hj
  simp only [BitVec.getLsbD_or, BitVec.getLsbD_shiftLeft, BitVec.getLsbD_setWidth,
    BitVec.getLsbD_append, hj, decide_true, Bool.true_and]
  rcases (by omega : j < 8 ∨ 8 ≤ j ∧ j < 16 ∨ 16 ≤ j ∧ j < 24 ∨ 24 ≤ j) with h | h | h | h
  · simp [h, show j < 16 by omega, show j < 24 by omega]
  · simp [h, show ¬ j < 8 by omega, show j < 24 by omega, show j - 8 < 8 by omega,
      show j - 8 < 32 by omega]
  · simp [h, show ¬ j < 8 by omega, show ¬ j < 16 by omega, show j - 16 < 32 by omega,
      BitVec.getLsbD_of_ge a j (by omega), BitVec.getLsbD_of_ge b (j - 8) (by omega),
      show j - 16 < 8 by omega]
  · simp [show ¬ j < 8 by omega, show ¬ j < 16 by omega, show ¬ j < 24 by omega,
      BitVec.getLsbD_of_ge a j (by omega), BitVec.getLsbD_of_ge b (j - 8) (by omega),
      BitVec.getLsbD_of_ge c (j - 16) (by omega), show j - 24 < 32 by omega]

/-- A byte of a 16-bit value read back (R70). -/
theorem le16_toNat (s : Bytes) (i : Nat) :
    (le16 s i).toNat = (byteAt s i).toNat + 256 * (byteAt s (i + 1)).toNat := by
  have h₁ := (byteAt s i).isLt
  have h₂ := (byteAt s (i + 1)).isLt
  simp only [le16, zext, BitVec.toNat_or, BitVec.toNat_shiftLeft, BitVec.toNat_setWidth]
  rw [Nat.mod_eq_of_lt (by omega), Nat.mod_eq_of_lt (by omega), Nat.lor_comm,
    Nat.mod_eq_of_lt (by simp; omega), ← Nat.shiftLeft_add_eq_or_of_lt h₁]
  simp only [Nat.shiftLeft_eq]
  omega

end Sys2Proof.Machine
end

