-- ==== Sys2Proof/Laws/PerInstr.lean ====
section
/-! SUPPORT. Statements about every instruction as syntax, one lemma per constructor. -/

namespace Sys2Proof.Laws

/-- The request word of an operation is legal (R64), and `W` is 1 in it only for PPARSE_RSP (R61). -/
def LegalWord.Statement (i : Instr) : Prop :=
  (encode i).wellFormed = true ∧ (widthField (encode i).word = 0 ∨ i.mnemonic = "PPARSE_RSP")

theorem LegalWord.of_word {i : Instr} (w : Byte) (hw : (encode i).word = w)
    (h : reservedWord w = false ∧ (widthField w = 0 ∨ i.mnemonic = "PPARSE_RSP")) :
    LegalWord.Statement i := by
  subst hw
  exact ⟨by simp [Request.wellFormed, h.1], h.2⟩

theorem LegalWord.fenc (F : Bytes) : LegalWord.Statement (.fenc F) :=
  LegalWord.of_word 0x01 rfl ⟨by decide, .inl (by decide)⟩
theorem LegalWord.fdecb (b : Byte) : LegalWord.Statement (.fdecb b) :=
  LegalWord.of_word 0x02 rfl ⟨by decide, .inl (by decide)⟩
theorem LegalWord.fdec (S : Bytes) : LegalWord.Statement (.fdec S) :=
  LegalWord.of_word 0x03 rfl ⟨by decide, .inl (by decide)⟩
theorem LegalWord.frst : LegalWord.Statement .frst :=
  LegalWord.of_word 0x04 rfl ⟨by decide, .inl (by decide)⟩
theorem LegalWord.fstat : LegalWord.Statement .fstat :=
  LegalWord.of_word 0x05 rfl ⟨by decide, .inl (by decide)⟩
theorem LegalWord.csum (P : Bytes) : LegalWord.Statement (.csum P) :=
  LegalWord.of_word 0x06 rfl ⟨by decide, .inl (by decide)⟩
theorem LegalWord.pbuild (op : Byte) (P : Bytes) : LegalWord.Statement (.pbuild op P) :=
  LegalWord.of_word 0x07 rfl ⟨by decide, .inl (by decide)⟩
theorem LegalWord.pparseCmd (K : Bytes) : LegalWord.Statement (.pparseCmd K) :=
  LegalWord.of_word 0x08 rfl ⟨by decide, .inl (by decide)⟩
theorem LegalWord.pparseRsp (W : StatusWidth) (K : Bytes) : LegalWord.Statement (.pparseRsp W K) := by
  cases W
  · exact LegalWord.of_word 0x09 rfl ⟨by decide, .inr rfl⟩
  · exact LegalWord.of_word 0x19 rfl ⟨by decide, .inr rfl⟩

end Sys2Proof.Laws
end

