-- ==== Sys2Proof/Tests/Slice0.lean ====
section
/-! SUPPORT. The model's own tests. Expected values come from spec/95_test_vectors.md (the vector is
named), from the word layout of R61 and R63 written out bit by bit, or from the rule named. -/

namespace Sys2Proof.Tests

open Sys2Proof.Machine

/-- A SLIP instance with seed 0xEF, as 95_test_vectors.md section 2 sets it up. -/
def block (maxFrameLen : Nat) (d : Decoder) : State := ⟨Params.slip maxFrameLen 0xEF, d, [], []⟩

/-- The block with a request waiting, and a second input behind it. -/
def asked (d : Decoder) (r : Request) : State :=
  { block 256 d with inputs := [.request r, .powerOnReset] }

/-- What a step or an operation leaves of the decoder, and the record it returned last. -/
def seen : Host.Outcome State Fault Refusal → Option (Decoder × Option Result)
  | .next t => some (t.dec, t.lastResult)
  | .fault _ => none
  | .refused _ => none

/-! ### Request words, bit by bit: RSV 7:5, W 4, OP 3:0 -/

theorem test_decode_fenc : decode ⟨0b000_0_0001#8, 0x77, [1, 2]⟩ = .ok (.fenc [1, 2]) := rfl
theorem test_decode_fdecb : decode ⟨0b000_0_0010#8, 0x77, [1, 2]⟩ = .ok (.fdecb 0x77) := rfl
theorem test_decode_fdec : decode ⟨0b000_0_0011#8, 0x77, [1, 2]⟩ = .ok (.fdec [1, 2]) := rfl
theorem test_decode_frst : decode ⟨0b000_0_0100#8, 0x77, [1, 2]⟩ = .ok .frst := rfl
theorem test_decode_fstat : decode ⟨0b000_0_0101#8, 0x77, [1, 2]⟩ = .ok .fstat := rfl
theorem test_decode_csum : decode ⟨0b000_0_0110#8, 0x77, [1, 2]⟩ = .ok (.csum [1, 2]) := rfl
theorem test_decode_pbuild : decode ⟨0b000_0_0111#8, 0x77, [1, 2]⟩ = .ok (.pbuild 0x77 [1, 2]) := rfl
theorem test_decode_pparseCmd : decode ⟨0b000_0_1000#8, 0x77, [1, 2]⟩ = .ok (.pparseCmd [1, 2]) := rfl
/-- RQ-5. -/
theorem test_decode_pparseRsp_s2 :
    decode ⟨0b000_0_1001#8, 0x77, [1, 2]⟩ = .ok (.pparseRsp .s2 [1, 2]) := rfl
/-- RQ-6. -/
theorem test_decode_pparseRsp_s4 :
    decode ⟨0b000_1_1001#8, 0x77, [1, 2]⟩ = .ok (.pparseRsp .s4 [1, 2]) := rfl

/-- R63: "the legal request words are exactly 0x01 to 0x09 and 0x19". -/
theorem test_legal_words :
    ((List.range 256).filter fun w => (decodeTableWord 8 w).isSome) =
      [0x01, 0x02, 0x03, 0x04, 0x05, 0x06, 0x07, 0x08, 0x09, 0x19] := by decide +kernel

/-- R73: a request word has one length, 8 bits. -/
theorem test_decodeTableWord_length :
    decodeTableWord 16 0x04 = none ∧ decodeTableWord 8 0x104 = none ∧
    decodeTableWord 8 0x04 = some .frst := by decide

/-! ### WellFormed refuses an ill-formed term of each kind -/

theorem test_reservedOp :
    Request.wellFormed ⟨0x00, 0, []⟩ = false ∧ Request.wellFormed ⟨0x0A, 0, []⟩ = false ∧
    Request.wellFormed ⟨0x0F, 0, []⟩ = false ∧ reservedOp 0x0A = true ∧ reservedOp 0x09 = false := by
  decide

theorem test_reservedRsv :
    Request.wellFormed ⟨0x21, 0, []⟩ = false ∧ reservedRsv 0x21 = true ∧ reservedRsv 0x19 = false := by
  decide

theorem test_reservedWidth :
    Request.wellFormed ⟨0x11, 0, []⟩ = false ∧ reservedWidth 0x11 = true ∧
    reservedWidth 0x19 = false ∧ Request.wellFormed ⟨0x19, 0, []⟩ = true := by decide

theorem test_valid_instances :
    (Params.slip 1 0xEF).Valid ∧ (Params.hdlc 256 0).Valid ∧ Config.params.Valid := by
  refine ⟨by decide, by decide, by decide, by decide, by decide, Nat.succ_ne_zero _⟩

/-- R3 (a). -/
theorem test_invalid_a : ¬ { Params.slip 4 0 with esc := 0xC0 }.Valid := by decide
/-- R3 (b). -/
theorem test_invalid_b : ¬ { Params.slip 4 0 with escEscCode := 0xDC }.Valid := by decide
/-- R3 (c), each of its four cases. -/
theorem test_invalid_c :
    ¬ { Params.slip 4 0 with escDelimCode := 0xC0 }.Valid ∧
    ¬ { Params.slip 4 0 with escDelimCode := 0xDB }.Valid ∧
    ¬ { Params.slip 4 0 with escEscCode := 0xC0 }.Valid ∧
    ¬ { Params.slip 4 0 with escEscCode := 0xDB }.Valid := by decide
/-- R3 (d). -/
theorem test_invalid_d : ¬ (Params.slip 0 0xEF).Valid := by decide

/-! ### One step per instruction, at most two -/

/-- FE-9. -/
theorem test_fenc : seen (exec (.fenc [0x01, 0xC0, 0xDB, 0x02]) (block 256 .reset)) =
    some (.reset, some { code := .ok, data := some [0xC0, 0x01, 0xDB, 0xDC, 0xDB, 0xDD, 0x02, 0xC0] }) := by
  decide
/-- FE-10: the HDLC instance. -/
theorem test_fenc_hdlc :
    seen (exec (.fenc [0x7E, 0x01]) ⟨Params.hdlc 256 0xEF, .reset, [], []⟩) =
    some (.reset, some { code := .ok, data := some [0x7E, 0x7D, 0x5E, 0x01, 0x7E] }) := by decide

/-- The FDECB trace, byte DC after C0 01 DB. -/
theorem test_fdecb_escape : seen (exec (.fdecb 0xDC) (block 256 ⟨.escape, [0x01]⟩)) =
    some (⟨.inFrame, [0x01, 0xC0]⟩, some { code := .incomplete, consumed := some 1 }) := by decide
/-- The FDECB trace, byte 41 after DB. -/
theorem test_fdecb_badEscape : seen (exec (.fdecb 0x41) (block 256 ⟨.escape, []⟩)) =
    some (⟨.skip, []⟩, some { code := .ferrBadEscape, consumed := some 1 }) := by decide

/-- FD-15. -/
theorem test_fdec :
    seen (exec (.fdec [0x4F, 0x4B, 0xC0, 0x01, 0xDB, 0xDC, 0xC0, 0x55]) (block 256 .reset)) =
    some (.reset, some { code := .ok, data := some [0x01, 0xC0], consumed := some 7 }) := by decide
/-- FM-5. -/
theorem test_fdec_oversize :
    seen (exec (.fdec [0xC0, 0x01, 0xDB, 0xDC, 0xC0]) (block 1 .reset)) =
    some (⟨.skip, []⟩, some { code := .ferrOversize, consumed := some 4 }) := by decide

/-- FR-3. -/
theorem test_frst : seen (exec .frst (block 256 ⟨.inFrame, [0x01, 0x02]⟩)) =
    some (⟨.hunt, []⟩, some { code := .ok }) := by decide

/-- FR-4. -/
theorem test_fstat : seen (exec .fstat (block 256 ⟨.escape, [0x05]⟩)) =
    some (⟨.escape, [0x05]⟩, some { code := .ok, state := some 2#2, length := some 1 }) := by decide

/-- CS-6. -/
theorem test_csum : seen (exec (.csum [0x12, 0x34, 0x56, 0x78]) (block 256 .reset)) =
    some (.reset, some { code := .ok, csum := some 0xE7 }) := by decide

/-- PB-5. -/
theorem test_pbuild : seen (exec (.pbuild 0xC0 [0xDB]) (block 256 .reset)) =
    some (.reset, some { code := .ok, data := some [0xC0, 0x01, 0x00, 0xDB, 0x34, 0x00, 0x00, 0x00] }) := by
  decide
/-- PB-7. -/
theorem test_pbuild_overflow : seen (exec (.pbuild 0x01 (List.replicate 65536 0)) (block 256 .reset)) =
    some (.reset, some { code := .lengthOverflow }) := by
  have h : ∀ P : Bytes, 65535 < P.length → seen (exec (.pbuild 0x01 P) (block 256 .reset)) =
      some (.reset, some { code := .lengthOverflow }) := by
    intro P hP
    simp [exec, execPbuild, buildCommand, State.conclude, State.respond, State.lastResult, seen, block, hP]
  exact h _ (by rw [List.length_replicate]; decide)

/-- PC-1. -/
theorem test_pparseCmd :
    seen (exec (.pparseCmd [0x08, 0x04, 0x00, 0x07, 0x07, 0x12, 0x20, 0xDD, 0x00, 0x00, 0x00])
      (block 256 .reset)) =
    some (.reset, some { code := .ok, opcode := some 0x08, payload := some [0x07, 0x07, 0x12, 0x20],
                         checksum := some 0x000000DD }) := by decide
/-- PC-8. -/
theorem test_pparseCmd_upper :
    seen (exec (.pparseCmd [0x01, 0x00, 0x00, 0xEF, 0x00, 0x00, 0x01]) (block 256 .reset)) =
    some (.reset, some { code := .malChecksum, checksum := some 0x010000EF, csum := some 0xEF }) := by
  decide

/-- PR-3. -/
theorem test_pparseRsp :
    seen (exec (.pparseRsp .s2 [0x0A, 0x04, 0x00, 0x00, 0x00, 0x01, 0xC1, 0xF0, 0xFF]) (block 256 .reset)) =
    some (.reset, some { code := .ok, opcode := some 0x0A, status := some [0x00, 0x00],
                         payload := some [0x01, 0xC1, 0xF0, 0xFF] }) := by decide
/-- PR-4. -/
theorem test_pparseRsp_width :
    seen (exec (.pparseRsp .s4 [0x0A, 0x04, 0x00, 0x00, 0x00, 0x01, 0xC1, 0xF0, 0xFF]) (block 256 .reset)) =
    some (.reset, some { code := .malLength, length := some 4 }) := by decide

/-- RQ-3, RQ-4: the decoder's partial frame is left alone. -/
theorem test_step_badRequest :
    seen (step (asked ⟨.inFrame, [0x01, 0x02]⟩ ⟨0x11, 0, [0x01]⟩)) =
      some (⟨.inFrame, [0x01, 0x02]⟩, some { code := .badRequest }) ∧
    seen (step (asked ⟨.inFrame, [0x01, 0x02]⟩ ⟨0x21, 0, [0x01]⟩)) =
      some (⟨.inFrame, [0x01, 0x02]⟩, some { code := .badRequest }) := by decide

/-- FR-1, as the first request after reset. -/
theorem test_step_after_reset : seen (step (State.reset.withFetchWord 8 0x05)) =
    some (.reset, some { code := .ok, state := some 0#2, length := some 0 }) := by rfl

/-- R71: a line of 95_test_vectors.md, with a comment. -/
theorem test_readLine :
    readLine "PBUILD 08, [07 07 12 20] ; PB-1".toList =
      some (.request (.pbuild 0x08 [0x07, 0x07, 0x12, 0x20])) := by decide +kernel

/-! ### Witnesses: for each statement with hypotheses, a state and operands that meet all of them, with
one for each of its clauses -/

/-- `test_hyp_<Name>` is the witness of `Obligations.<Name>`. -/
theorem test_hyp_DecodeOfEncodeIsTheInstruction :
    decode ⟨0x07, 0xC0, [0xDB]⟩ = .ok (.pbuild 0xC0 [0xDB]) := rfl

theorem test_hyp_DecoderAgreesWithOpcodeTable :
    decode ⟨0x19, 0, [8]⟩ = .ok (.pparseRsp .s4 [8]) ∧ decode ⟨0x0A, 0, []⟩ = .error .opReserved ∧
    (⟨"PPARSE_RSP", 0x09, 0xEF⟩ : OpcodeRow) ∈ opcodeTable := by
  refine ⟨rfl, rfl, by decide⟩

/-- Each condition of R64 at its boundary words, and the legal words beside them. -/
theorem test_hyp_ReservedWordsReturnBadRequest :
    (asked .reset ⟨0x00, 0, []⟩).params.Valid ∧
    (asked .reset ⟨0x0A, 0, []⟩).inputs = .request ⟨0x0A, 0, []⟩ :: [.powerOnReset] ∧
    (asked .reset ⟨0xE1, 0, []⟩).inputs = .request ⟨0xE1, 0, []⟩ :: [.powerOnReset] ∧
    (asked .reset ⟨0x18, 0, []⟩).inputs = .request ⟨0x18, 0, []⟩ :: [.powerOnReset] ∧
    (asked .reset ⟨0x19, 0, []⟩).inputs = .request ⟨0x19, 0, []⟩ :: [.powerOnReset] ∧
    ([0x00, 0x0A, 0x0F, 0x20, 0xE1, 0x11, 0x18, 0x1A].all fun w => reservedWord w) = true ∧
    ([0x01, 0x09, 0x19].all fun w => !reservedWord w) = true := by
  refine ⟨by decide, rfl, rfl, rfl, rfl, by decide, by decide⟩

theorem test_hyp_StepPerformsTheDecodedRequest :
    (asked .reset ⟨0x04, 0, []⟩).params.Valid ∧
    (asked .reset ⟨0x04, 0, []⟩).inputs = .request ⟨0x04, 0, []⟩ :: [.powerOnReset] ∧
    decode ⟨0x04, 0, []⟩ = .ok .frst := by
  refine ⟨by decide, rfl, rfl⟩

theorem test_hyp_StepWithNothingIssuedWaits :
    (block 256 .reset).params.Valid ∧ (block 256 .reset).inputs = [] := by
  refine ⟨by decide, rfl⟩

/-- An instance that breaks R3 (d) is refused, one at its bound is not. -/
theorem test_hyp_InvalidParametersAreRefused :
    step (block 0 .reset) = .refused .invalidParams ∧ step (block 1 .reset) = .next (block 1 .reset) :=
  ⟨rfl, rfl⟩

theorem test_hyp_PowerOnResetAndFrstResetTheDecoder :
    ({ block 4 ⟨.skip, []⟩ with inputs := [.powerOnReset] } : State).params.Valid ∧
    ({ block 4 ⟨.skip, []⟩ with inputs := [.powerOnReset] } : State).inputs = .powerOnReset :: [] := by
  refine ⟨by decide, rfl⟩

/-- The second clause: a step that answers a next state. -/
theorem test_hyp_EveryRequestReturnsOneRecordAndKeepsParameters :
    step (block 4 .reset) = .next (block 4 .reset) := rfl

theorem test_hyp_DecoderAccessByOperation :
    (Instr.csum [1]).mnemonic ∈ ["FENC", "CSUM", "PBUILD", "PPARSE_CMD", "PPARSE_RSP"] ∧
    (asked .reset ⟨0x0F, 0, []⟩).params.Valid ∧
    (asked .reset ⟨0x0F, 0, []⟩).inputs = .request ⟨0x0F, 0, []⟩ :: [.powerOnReset] ∧
    decode ⟨0x0F, 0, []⟩ = .error .opReserved := by
  refine ⟨by decide, by decide, rfl, rfl⟩

theorem test_hyp_SideEffectsAndIdempotency :
    Instr.fstat.mnemonic ∈ ["FENC", "CSUM", "PBUILD", "PPARSE_CMD", "PPARSE_RSP", "FSTAT"] := by decide

/-- The clauses about the width of `status`. -/
theorem test_hyp_ResultFieldsPresentByOperationAndOutcome :
    seen (exec (.pparseRsp .s2 [8, 0, 0, 1, 5]) (block 4 .reset)) =
      some (.reset, some { code := .ok, opcode := some 8, status := some [1, 5], payload := some [] }) ∧
    seen (exec (.pparseRsp .s4 [8, 0, 0, 1, 5, 6, 7]) (block 4 .reset)) =
      some (.reset, some { code := .ok, opcode := some 8, status := some [1, 5, 6, 7],
                           payload := some [] }) := by decide

/-- Each code that its clause is about is returned by some request. -/
theorem test_hyp_ResultCodesByOperationAndStateLeft :
    seen (exec (.fdecb 0xC0) (block 4 .reset)) =
      some (⟨.inFrame, []⟩, some { code := .incomplete, consumed := some 1 }) ∧
    seen (exec (.fdecb 0xDB) (block 4 ⟨.escape, [1]⟩)) =
      some (⟨.skip, []⟩, some { code := .ferrBadEscape, consumed := some 1 }) ∧
    seen (exec (.fdecb 0xC0) (block 4 ⟨.escape, [1]⟩)) =
      some (⟨.inFrame, []⟩, some { code := .ferrEscapeAtEnd, consumed := some 1 }) ∧
    seen (exec (.fdecb 0x01) (block 1 ⟨.inFrame, [1]⟩)) =
      some (⟨.skip, []⟩, some { code := .ferrOversize, consumed := some 1 }) ∧
    seen (exec (.pparseRsp .s2 [8, 0]) (block 1 .reset)) = some (.reset, some { code := .malShort }) ∧
    seen (exec (.pparseCmd [8, 0, 0]) (block 1 .reset)) =
      some (.reset, some { code := .malLength, length := some 0 }) ∧
    seen (exec (.pparseCmd [1, 0, 0, 0, 0, 0, 0]) (block 1 .reset)) =
      some (.reset, some { code := .malChecksum, checksum := some 0, csum := some 0xEF }) := by decide

theorem test_hyp_ByteClassesAreDistinct : (Params.slip 1 0).Valid := by decide

theorem test_hyp_FrameEndsAtItsFirstRawDelimiter : (block 1 .reset).params.Valid := by decide

theorem test_hyp_FdecbInHunt : (block 4 ⟨.hunt, []⟩).dec.rxState = .hunt := rfl

/-- Each branch: the delimiter with a buffer and without, the escape byte, a full buffer, room for one. -/
theorem test_hyp_FdecbInFrame :
    (block 1 ⟨.inFrame, []⟩).dec.rxState = .inFrame ∧
    seen (exec (.fdecb 0xC0) (block 1 ⟨.inFrame, [5]⟩)) =
      some (⟨.hunt, []⟩, some { code := .ok, data := some [5], consumed := some 1 }) ∧
    seen (exec (.fdecb 0xC0) (block 1 ⟨.inFrame, []⟩)) =
      some (⟨.inFrame, []⟩, some { code := .ok, data := some [], consumed := some 1 }) ∧
    seen (exec (.fdecb 0xDB) (block 1 ⟨.inFrame, [5]⟩)) =
      some (⟨.escape, [5]⟩, some { code := .incomplete, consumed := some 1 }) ∧
    seen (exec (.fdecb 0xDC) (block 1 ⟨.inFrame, [5]⟩)) =
      some (⟨.skip, []⟩, some { code := .ferrOversize, consumed := some 1 }) ∧
    seen (exec (.fdecb 0xDD) (block 1 ⟨.inFrame, []⟩)) =
      some (⟨.inFrame, [0xDD]⟩, some { code := .incomplete, consumed := some 1 }) := by
  refine ⟨rfl, ?_⟩
  decide

/-- Each branch: both escape codes, full and with room; the delimiter; the escape byte. -/
theorem test_hyp_FdecbInEscape :
    (block 1 ⟨.escape, []⟩).params.Valid ∧ (block 1 ⟨.escape, []⟩).dec.rxState = .escape ∧
    seen (exec (.fdecb 0xDD) (block 1 ⟨.escape, []⟩)) =
      some (⟨.inFrame, [0xDB]⟩, some { code := .incomplete, consumed := some 1 }) ∧
    seen (exec (.fdecb 0xDC) (block 1 ⟨.escape, [5]⟩)) =
      some (⟨.skip, []⟩, some { code := .ferrOversize, consumed := some 1 }) ∧
    seen (exec (.fdecb 0xC0) (block 1 ⟨.escape, [5]⟩)) =
      some (⟨.inFrame, []⟩, some { code := .ferrEscapeAtEnd, consumed := some 1 }) ∧
    seen (exec (.fdecb 0xDB) (block 1 ⟨.escape, [5]⟩)) =
      some (⟨.skip, []⟩, some { code := .ferrBadEscape, consumed := some 1 }) := by
  refine ⟨by decide, rfl, ?_⟩
  decide

theorem test_hyp_FdecbInSkip :
    (block 4 ⟨.skip, []⟩).Inv ∧ (block 4 ⟨.skip, []⟩).dec.rxState = .skip := by decide

/-- A full buffer, room for exactly one byte, and an empty buffer with content of the maximum length. -/
theorem test_hyp_OversizeIsRaisedOnTheByteBeyondTheMaximum :
    (block 2 ⟨.inFrame, [1, 2]⟩).params.Valid ∧ (block 2 ⟨.inFrame, [1, 2]⟩).dec.rxState = .inFrame ∧
    (block 2 ⟨.inFrame, [1, 2]⟩).dec.rxBuf.length = (block 2 ⟨.inFrame, [1, 2]⟩).params.maxFrameLen ∧
    (block 2 ⟨.inFrame, [1]⟩).dec.rxBuf.length < (block 2 ⟨.inFrame, [1]⟩).params.maxFrameLen ∧
    (block 2 ⟨.inFrame, []⟩).dec.rxBuf = [] ∧
    ([0xC0, 0xDB] : Bytes).length = (block 2 ⟨.inFrame, []⟩).params.maxFrameLen := by decide

/-- FDEC that stops before its last byte, and FDEC that ends INCOMPLETE: the two conditional clauses. -/
theorem test_hyp_FdecIsFdecbUpToTheFirstOutcome :
    seen (exec (.fdec [0xC0, 1, 0xC0, 7]) (block 2 .reset)) =
      some (.reset, some { code := .ok, data := some [1], consumed := some 3 }) ∧
    seen (exec (.fdec []) (block 2 .reset)) =
      some (.reset, some { code := .incomplete, consumed := some 0 }) := by decide

/-- The same two cases for the first chunk of a stream. -/
theorem test_hyp_ChunksAndBytesGiveTheSameOutcomes :
    seen (exec (.fdec [0xC0, 0xDB, 0x41, 7]) (block 2 .reset)) =
      some (⟨.skip, []⟩, some { code := .ferrBadEscape, consumed := some 3 }) ∧
    seen (exec (.fdec [0xC0, 1]) (block 2 .reset)) =
      some (⟨.inFrame, [1]⟩, some { code := .incomplete, consumed := some 2 }) := by decide

/-- Content of the maximum length, and one byte more. -/
theorem test_hyp_FrameRoundTrip :
    (block 2 .reset).params.Valid ∧ (block 2 .reset).dec.rxState = .hunt ∧
    ([0xC0, 0xDB] : Bytes).length ≤ (block 2 .reset).params.maxFrameLen ∧
    (block 2 .reset).params.maxFrameLen < ([1, 2, 3] : Bytes).length := by decide

/-- A legal state for each of the four clauses, with content of the maximum length. -/
theorem test_hyp_ResynchronisationAfterAnyState :
    (block 2 ⟨.hunt, []⟩).Legal ∧ (block 2 ⟨.skip, []⟩).Legal ∧
    (block 2 ⟨.inFrame, []⟩).Legal ∧ (block 2 ⟨.escape, [1, 2]⟩).Legal ∧
    (block 2 ⟨.inFrame, [1, 2]⟩).Legal ∧
    ([0xC0, 0xDB] : Bytes) ≠ [] ∧ ([0xC0, 0xDB] : Bytes).length ≤ (block 2 ⟨.hunt, []⟩).params.maxFrameLen ∧
    (block 2 ⟨.inFrame, []⟩).dec.rxBuf = [] ∧ (block 2 ⟨.inFrame, [1, 2]⟩).dec.rxBuf ≠ [] := by
  refine ⟨by decide, by decide, by decide, by decide, by decide, by decide, by decide, by decide, by decide⟩

theorem test_hyp_BytesOutsideFramesAreDiscarded :
    (block 2 ⟨.hunt, []⟩).Inv ∧ (block 2 ⟨.hunt, []⟩).dec.rxState = .hunt ∧
    (block 2 ⟨.skip, []⟩).Inv ∧ (block 2 ⟨.skip, []⟩).dec.rxState = .skip ∧
    (block 2 ⟨.hunt, []⟩).params.delim ∉ ([0xDB, 0xDC, 1] : Bytes) ∧
    seen (exec (.fdecb 0xC0) (block 2 ⟨.skip, []⟩)) =
      some (⟨.inFrame, []⟩, some { code := .incomplete, consumed := some 1 }) := by decide

theorem test_hyp_FramingErrorsAreNeverFatal :
    seen (exec (.fdecb 0xC0) (block 2 ⟨.escape, []⟩)) =
      some (⟨.inFrame, []⟩, some { code := .ferrEscapeAtEnd, consumed := some 1 }) ∧
    classOfValue Code.ferrEscapeAtEnd.value = some .framingError := by decide

theorem test_hyp_FstatReportsTheDecoder :
    (block 2 ⟨.skip, []⟩).Inv ∧
    seen (exec .fstat (block 2 ⟨.skip, []⟩)) =
      some (⟨.skip, []⟩, some { code := .ok, state := some 3#2, length := some 0 }) := by decide

theorem test_hyp_DecoderInvariantIsKeptByEveryStep :
    ({ block 1 ⟨.inFrame, [7]⟩ with inputs := [.request ⟨0x02, 0xC0, []⟩] } : State).Inv ∧
    step { block 1 ⟨.inFrame, [7]⟩ with inputs := [.request ⟨0x02, 0xC0, []⟩] } =
      .next { block 1 .reset with
        results := [{ code := .ok, data := some [7], consumed := some 1 }] } ∧
    (Params.slip 1 0).Valid ∧ 1 ≤ (Params.slip 1 0).maxFrameLen := by
  refine ⟨by decide, rfl, by decide, by decide⟩

theorem test_hyp_RunsPerformEveryInputAndNeverStop :
    (asked ⟨.inFrame, [1]⟩ ⟨0x00, 0, []⟩).Legal ∧
    requestCount (asked ⟨.inFrame, [1]⟩ ⟨0x00, 0, []⟩).inputs = 1 := by decide

theorem test_hyp_RunPerformsRequestsInIssueOrder :
    (asked .reset (encode .fstat)).params.Valid ∧
    (asked .reset (encode .fstat)).inputs =
      [Instr.fstat].map (fun i => .request (encode i)) ++ [.powerOnReset] := by
  refine ⟨by decide, rfl⟩

theorem test_hyp_CsumXorLaws : ([1, 2] : Bytes).Perm [2, 1] := by decide

/-- A changed byte at the last index, and two changes that cancel. -/
theorem test_hyp_SingleByteChangesAreDetected :
    ([7, 9] : Bytes).length ≤ 65535 ∧ 1 < ([7, 9] : Bytes).length ∧ (0x80 : Byte) ≠ 0 ∧
    ([6, 8] : Bytes).length = ([7, 9] : Bytes).length ∧ xorFold 0 [6, 8] = xorFold 0 [7, 9] := by decide

theorem test_hyp_BuildParseRoundTrip : (List.replicate 65535 (0 : Byte)).length ≤ 65535 :=
  List.length_replicate.le

/-- A command packet and a response of exactly the maximum length, and content one byte longer. -/
theorem test_hyp_PacketsSurviveTheFrame :
    (block 8 .reset).params.Valid ∧ (block 8 .reset).dec.rxState = .hunt ∧
    exec (.pbuild 5 [0xC0]) (block 8 .reset) = .next { block 8 .reset with
      results := [{ code := .ok, data := some [5, 1, 0, 0xC0, 0x2F, 0, 0, 0] }] } ∧
    7 + ([0xC0] : Bytes).length ≤ (block 8 .reset).params.maxFrameLen ∧
    ([0, 1, 2, 3] : Bytes).length = statusBytes .s4 ∧ ([9] : Bytes).length ≤ 65535 ∧
    (responsePacket 5 [0, 1, 2, 3] [9]).length ≤ (block 8 .reset).params.maxFrameLen ∧
    (block 8 .reset).params.maxFrameLen < ([1, 2, 3, 4, 5, 6, 7, 8, 9] : Bytes).length := by
  refine ⟨by decide, rfl, rfl, by decide, by decide, by decide, by decide, by decide⟩

end Sys2Proof.Tests
end

section
/-! The proofs of the statements about 00_scope.md: the parameters of the block (R2, R3), the outcome of
a step and of a request (R29, R62), the classes of bytes (R7), the block at reset. -/

namespace Sys2Proof.Proofs

open Sys2Proof Sys2Proof.Machine

/-! ### Parameters -/

/-- The conditions (a) to (d) of R3, each denied. -/
theorem not_valid_iff (p : Params) :
    ¬ p.Valid ↔
      (p.delim = p.esc ∨ p.escDelimCode = p.escEscCode ∨
       p.escDelimCode = p.delim ∨ p.escDelimCode = p.esc ∨
       p.escEscCode = p.delim ∨ p.escEscCode = p.esc ∨ ¬ 1 ≤ p.maxFrameLen) := by
  have length_bound : p.maxFrameLen = 0 ↔ ¬ 1 ≤ p.maxFrameLen := by omega
  simp only [Params.Valid, ne_eq, not_and_or, not_not, or_assoc, length_bound]

/-- The SLIP bytes meet (a) to (c) of R3, whatever the OPEN parameters are; (d) asks for room for a byte. -/
theorem slip_valid {maxFrameLen : Nat} (h : maxFrameLen ≠ 0) (seed : Byte) :
    (Params.slip maxFrameLen seed).Valid := by
  have distinct_bytes : (0xC0 : Byte) ≠ 0xDB ∧ (0xDC : Byte) ≠ 0xDD ∧
      ((0xDC : Byte) ≠ 0xC0 ∧ (0xDC : Byte) ≠ 0xDB ∧ (0xDD : Byte) ≠ 0xC0 ∧ (0xDD : Byte) ≠ 0xDB) := by
    decide
  obtain ⟨ha, hb, hc⟩ := distinct_bytes
  exact ⟨ha, hb, hc, h⟩

/-- The default parameters are some that R3 admits, though their `MAX_FRAME_LEN` is OPEN (R2). -/
theorem config_params_valid : Config.params.Valid := slip_valid (Nat.succ_ne_zero _) _

/-- The decoder at reset is one that R27 allows, whatever the parameters. -/
theorem decoder_reset_inv (p : Params) : Decoder.reset.Inv p :=
  ⟨fun _ => rfl, Nat.zero_le _⟩

/-! ### Steps -/

/-- A step of a block with valid parameters answers a next state and changes no parameter (R29, R211). -/
theorem step_next_of_valid {s : State} (hv : s.params.Valid) :
    ∃ t, step s = .next t ∧ t.params = s.params := by
  obtain ⟨-, h⟩ | ⟨rest, -, h⟩ | ⟨r, rest, i, -, -, h⟩ | ⟨r, rest, e, -, -, h⟩ := step_cases hv
  · exact ⟨_, h, rfl⟩
  · exact ⟨_, h, rfl⟩
  · obtain ⟨d, q, hx⟩ := exec_next i { s with inputs := rest }
    exact ⟨_, h.trans hx, rfl⟩
  · exact ⟨_, h, rfl⟩

/-- A step of a block whose parameters are not valid is refused (R3). -/
theorem step_refused_of_not_valid {s : State} (hv : ¬ s.params.Valid) :
    step s = .refused .invalidParams := if_neg hv

/-- Validity of the parameters alone decides whether a step is refused (R3). -/
theorem step_refused_iff (s : State) : step s = .refused .invalidParams ↔ ¬ s.params.Valid := by
  constructor
  · intro hr hv
    obtain ⟨t, ht, -⟩ := step_next_of_valid hv
    simp [ht] at hr
  · exact step_refused_of_not_valid

/-- No step changes a parameter (R2, R29). -/
theorem step_params {s t : State} (h : step s = .next t) : t.params = s.params := by
  by_cases hv : s.params.Valid
  · obtain ⟨u, hu, hp⟩ := step_next_of_valid hv
    obtain rfl : u = t := by simpa [hu] using h
    exact hp
  · simp [step_refused_of_not_valid hv] at h

/-! ### Byte classes -/

/-- Everything `cls` can answer (R7), in the order of its tests: a byte is told from the bytes tested
before its own. -/
theorem cls_cases (p : Params) (b : Byte) :
    (cls p b = .delim ∧ b = p.delim) ∨
    (cls p b = .esc ∧ b = p.esc ∧ b ≠ p.delim) ∨
    (cls p b = .codeDelim ∧ b = p.escDelimCode ∧ b ≠ p.delim ∧ b ≠ p.esc) ∨
    (cls p b = .codeEsc ∧ b = p.escEscCode ∧ b ≠ p.delim ∧ b ≠ p.esc ∧ b ≠ p.escDelimCode) ∨
    (cls p b = .other ∧ b ≠ p.delim ∧ b ≠ p.esc ∧ b ≠ p.escDelimCode ∧ b ≠ p.escEscCode) := by
  unfold cls
  by_cases h₁ : b = p.delim
  · exact .inl ⟨if_pos h₁, h₁⟩
  by_cases h₂ : b = p.esc
  · exact .inr (.inl ⟨by rw [if_neg h₁, if_pos h₂], h₂, h₁⟩)
  by_cases h₃ : b = p.escDelimCode
  · exact .inr (.inr (.inl ⟨by rw [if_neg h₁, if_neg h₂, if_pos h₃], h₃, h₁, h₂⟩))
  rw [if_neg h₁, if_neg h₂, if_neg h₃]
  by_cases h₄ : b = p.escEscCode
  · exact .inr (.inr (.inr (.inl ⟨if_pos h₄, h₄, h₁, h₂, h₃⟩)))
  · exact .inr (.inr (.inr (.inr ⟨if_neg h₄, h₁, h₂, h₃, h₄⟩)))

/-! ### The statements -/

/-- Settles O19. In each case of `cls_cases` R3 tells the byte from the three others that have a class. -/
theorem byteClassesAreDistinct : Obligations.ByteClassesAreDistinct := by
  rintro p b ⟨delim_ne_esc, codes_ne, ⟨cd_ne_delim, cd_ne_esc, ce_ne_delim, ce_ne_esc⟩, -⟩
  obtain ⟨hc, rfl⟩ | ⟨hc, rfl, -⟩ | ⟨hc, rfl, -⟩ | ⟨hc, rfl, -⟩ | ⟨hc, hd, he, hcd, hce⟩ :=
    cls_cases p b
  · simp [hc, delim_ne_esc, cd_ne_delim.symm, ce_ne_delim.symm]
  · simp [hc, delim_ne_esc.symm, cd_ne_esc.symm, ce_ne_esc.symm]
  · simp [hc, codes_ne, cd_ne_delim, cd_ne_esc]
  · simp [hc, codes_ne.symm, ce_ne_delim, ce_ne_esc]
  · simp [hc, hd, he, hcd, hce]

/-- Settles O9: a refusal is the failure of R3, and that is one of its conditions denied. -/
theorem invalidParametersAreRefused : Obligations.InvalidParametersAreRefused :=
  fun s => (step_refused_iff s).trans (not_valid_iff s.params)

/-- Settles O13: `exec_next` for the requests, `step_params` for the steps. -/
theorem everyRequestReturnsOneRecordAndKeepsParameters :
    Obligations.EveryRequestReturnsOneRecordAndKeepsParameters :=
  ⟨exec_next, fun _ _ => step_params⟩

/-- Settles O12: the fields of `State.reset`, and that it is legal. -/
theorem resetInstanceIsTheDefaultAndLegal : Obligations.ResetInstanceIsTheDefaultAndLegal :=
  have legal : State.reset.Legal := ⟨config_params_valid, decoder_reset_inv _⟩
  ⟨rfl, rfl, rfl, rfl, legal, rfl, rfl⟩

end Sys2Proof.Proofs
end

section
/-! The proofs of the statements about 10_state.md: the decoder state at reset (R30), the invariant of R27,
the access of each operation to the decoder state (R28). What a request leaves of the decoder and the
record it returns are written as functions of the parameters and the decoder; `exec_eq` ties them to `exec`. -/

namespace Sys2Proof.Proofs

open Sys2Proof Sys2Proof.Machine

/-! ### What a request does -/

/-- The decoder a request leaves, from the one it finds (R28). -/
def decAfter (p : Params) (d : Decoder) : Instr → Decoder
  | .fenc _ => d
  | .fdecb b => (decStep p d b).1
  | .fdec S => (decRun p d S).dec
  | .frst => Decoder.reset
  | .fstat => d
  | .csum _ => d
  | .pbuild _ _ => d
  | .pparseCmd _ => d
  | .pparseRsp _ _ => d

/-- The record a request returns (R62), from the parameters and the decoder it finds. -/
def recordOf (p : Params) (d : Decoder) : Instr → Result
  | .fenc F => { code := .ok, data := some (frame p F) }
  | .fdecb b => decResult 1 (decStep p d b).2
  | .fdec S => decResult (decRun p d S).consumed (decRun p d S).outcome
  | .frst => { code := .ok }
  | .fstat => { code := .ok, state := some d.rxState.code, length := some (rxLen d) }
  | .csum P => { code := .ok, csum := some (csumOf p P) }
  | .pbuild op P => buildCommand p op P
  | .pparseCmd K => parseCommand p K
  | .pparseRsp W K => parseResponse W K

/-- Everything a request does, as a function of the parameters and the decoder: it reads neither an
earlier record nor a later input (R20, R23, R45). -/
theorem exec_eq (i : Instr) (s : State) :
    exec i s = .next { s with
      dec := decAfter s.params s.dec i
      results := s.results ++ [recordOf s.params s.dec i] } := by
  cases i <;> rfl

/-- The operations of the first row of R28's table: the decoder is left as it was, and the record is the
same whatever it held. -/
theorem stateless_access {i : Instr}
    (hi : i.mnemonic ∈ ["FENC", "CSUM", "PBUILD", "PPARSE_CMD", "PPARSE_RSP"]) (p : Params) (d : Decoder) :
    decAfter p d i = d ∧ ∀ d', recordOf p d' i = recordOf p d i := by
  cases i with
  | fenc F => exact ⟨rfl, fun _ => rfl⟩
  | csum P => exact ⟨rfl, fun _ => rfl⟩
  | pbuild op P => exact ⟨rfl, fun _ => rfl⟩
  | pparseCmd K => exact ⟨rfl, fun _ => rfl⟩
  | pparseRsp W K => exact ⟨rfl, fun _ => rfl⟩
  | fdecb b => simp [Instr.mnemonic] at hi
  | fdec S => simp [Instr.mnemonic] at hi
  | frst => simp [Instr.mnemonic] at hi
  | fstat => simp [Instr.mnemonic] at hi

/-- A reserved request word is answered BAD_REQUEST, and nothing but the input is taken (R64, R205). -/
theorem step_of_reserved {s : State} {r : Request} {rest : List Input} {e : Reject}
    (hv : s.params.Valid) (hin : s.inputs = .request r :: rest) (hd : decode r = .error e) :
    step s = .next { s with inputs := rest, results := s.results ++ [{ code := .badRequest }] } := by
  obtain ⟨h, -⟩ | ⟨_, h, -⟩ | ⟨_, _, _, h, hok, -⟩ | ⟨_, _, _, h, -, hs⟩ := step_cases hv
  · simp [hin] at h
  · simp [hin] at h
  · obtain ⟨rfl, -⟩ : _ ∧ _ := by simpa [hin] using h
    simp [hd] at hok
  · obtain ⟨-, rfl⟩ : _ ∧ _ := by simpa [hin] using h
    exact hs

/-! ### The invariant of R27 -/

/-- An empty buffer is legal in every `rx_state`. -/
theorem inv_of_empty (p : Params) (x : RxState) : (⟨x, []⟩ : Decoder).Inv p :=
  ⟨fun _ => rfl, Nat.zero_le _⟩

/-- `IN_FRAME` allows every buffer up to `MAX_FRAME_LEN`. -/
theorem inv_inFrame {p : Params} {B : Bytes} (h : B.length ≤ p.maxFrameLen) :
    (⟨.inFrame, B⟩ : Decoder).Inv p :=
  ⟨by simp, h⟩

/-- `ESCAPE` allows every buffer up to `MAX_FRAME_LEN`. -/
theorem inv_escape {p : Params} {B : Bytes} (h : B.length ≤ p.maxFrameLen) :
    (⟨.escape, B⟩ : Decoder).Inv p :=
  ⟨by simp, h⟩

/-- `Append` adds a byte only below the maximum (R107), so the bound stays. -/
theorem appendByte_inv {p : Params} {d : Decoder} (v : Byte) (h : d.rxBuf.length ≤ p.maxFrameLen) :
    (appendByte p d v).1.Inv p := by
  obtain ⟨-, ha⟩ | ⟨hlt, ha⟩ := appendByte_cases p d v
  · rw [ha]
    exact inv_of_empty p _
  · rw [ha]
    exact inv_inFrame (by rw [List.length_append, List.length_singleton]; omega)

/-- One `DecStep` keeps R27 (R103 to R107). -/
theorem decStep_inv {p : Params} {d : Decoder} (b : Byte) (h : d.Inv p) : (decStep p d b).1.Inv p := by
  have bound : d.rxBuf.length ≤ p.maxFrameLen := h.2
  obtain ⟨hs, -⟩ | ⟨hs, -⟩ | ⟨hs, -⟩ | ⟨hs, -⟩ | ⟨hs, -⟩ | ⟨hs, -⟩ | ⟨v, hs, -⟩ | ⟨hs, -⟩ | ⟨hs, -⟩ :=
    decStep_cases p d b <;> rw [hs]
  · exact h
  · exact inv_of_empty p _
  · exact inv_inFrame bound
  · exact h
  · exact inv_of_empty p _
  · exact inv_escape bound
  · exact appendByte_inv v bound
  · exact inv_of_empty p _
  · exact inv_of_empty p _

/-- FDEC's loop keeps R27, wherever it stops (R110). -/
theorem decRun_inv {p : Params} {d : Decoder} (S : Bytes) (h : d.Inv p) : (decRun p d S).dec.Inv p := by
  induction S generalizing d with
  | nil => exact h
  | cons b S ih =>
    by_cases hb : (decStep p d b).2 = .incomplete
    · rw [decRun_cons_incomplete S hb]
      exact ih (decStep_inv b h)
    · rw [decRun_cons_stop S hb]
      exact decStep_inv b h

/-- Every request keeps R27. -/
theorem decAfter_inv {p : Params} {d : Decoder} (i : Instr) (h : d.Inv p) : (decAfter p d i).Inv p := by
  cases i with
  | fdecb b => exact decStep_inv b h
  | fdec S => exact decRun_inv S h
  | frst => exact decoder_reset_inv p
  | _ => exact h

/-- Every step keeps R27: a request by `decAfter_inv`, a power-on reset by the reset values, and nothing
else writes the decoder. -/
theorem step_inv {s t : State} (h : s.Inv) (ht : step s = .next t) : t.Inv := by
  by_cases hv : s.params.Valid
  · obtain ⟨-, hs⟩ | ⟨rest, -, hs⟩ | ⟨r, rest, i, -, -, hs⟩ | ⟨r, rest, e, -, -, hs⟩ := step_cases hv
    · obtain rfl := Host.Outcome.next.inj (hs.symm.trans ht)
      exact h
    · obtain rfl := Host.Outcome.next.inj (hs.symm.trans ht)
      exact decoder_reset_inv s.params
    · obtain rfl := Host.Outcome.next.inj ((hs.trans (exec_eq i _)).symm.trans ht)
      exact decAfter_inv i h
    · obtain rfl := Host.Outcome.next.inj (hs.symm.trans ht)
      exact h
  · simp [step_refused_of_not_valid hv] at ht

/-! ### Decoding stuffed content -/

/-- `Append` below the maximum (R107). -/
theorem appendByte_of_lt {p : Params} {d : Decoder} (v : Byte) (h : d.rxBuf.length < p.maxFrameLen) :
    appendByte p d v = (⟨.inFrame, d.rxBuf ++ [v]⟩, .incomplete) :=
  if_neg h.ne

/-- `DELIM` opens a frame in `HUNT` (R103). -/
theorem decStep_hunt_delim (p : Params) (B : Bytes) :
    decStep p ⟨.hunt, B⟩ p.delim = (⟨.inFrame, []⟩, .incomplete) := by
  simp [decStep, decHunt]

/-- A byte that is neither `DELIM` nor `ESC` is content in `IN_FRAME` (R104). -/
theorem decStep_inFrame_plain {p : Params} {b : Byte} (B : Bytes) (hd : b ≠ p.delim) (he : b ≠ p.esc) :
    decStep p ⟨.inFrame, B⟩ b = appendByte p ⟨.inFrame, B⟩ b := by
  obtain ⟨-, h⟩ | ⟨-, h, -⟩ | ⟨hc, -⟩ | ⟨hc, -⟩ | ⟨hc, -⟩ := cls_cases p b
  · exact absurd h hd
  · exact absurd h he
  all_goals simp [decStep, decInFrame, hc]

/-- `ESC` in `IN_FRAME` begins an escape sequence (R104). -/
theorem decStep_inFrame_esc {p : Params} (hv : p.Valid) (B : Bytes) :
    decStep p ⟨.inFrame, B⟩ p.esc = (⟨.escape, B⟩, .incomplete) := by
  obtain ⟨-, hesc, -⟩ := byteClassesAreDistinct p p.esc hv
  simp [decStep, decInFrame, hesc.2 rfl]

/-- `ESC_DELIM_CODE` in `ESCAPE` stands for `DELIM` (R101, R105). -/
theorem decStep_escape_delimCode {p : Params} (hv : p.Valid) (B : Bytes) :
    decStep p ⟨.escape, B⟩ p.escDelimCode = appendByte p ⟨.escape, B⟩ p.delim := by
  obtain ⟨-, -, hcode, -⟩ := byteClassesAreDistinct p p.escDelimCode hv
  simp [decStep, decEscape, unesc, hcode.2 rfl]

/-- `ESC_ESC_CODE` in `ESCAPE` stands for `ESC` (R101, R105). -/
theorem decStep_escape_escCode {p : Params} (hv : p.Valid) (B : Bytes) :
    decStep p ⟨.escape, B⟩ p.escEscCode = appendByte p ⟨.escape, B⟩ p.esc := by
  obtain ⟨-, -, -, hcode, -⟩ := byteClassesAreDistinct p p.escEscCode hv
  simp [decStep, decEscape, unesc, hcode.2 rfl]

/-- An escape sequence whose code stands for `v` appends `v` (R104, R105). -/
theorem decRun_escapeSequence {p : Params} (hv : p.Valid) {B : Bytes} {code v : Byte}
    (hcode : decStep p ⟨.escape, B⟩ code = appendByte p ⟨.escape, B⟩ v) (h : B.length < p.maxFrameLen) :
    decRun p ⟨.inFrame, B⟩ [p.esc, code] = ⟨⟨.inFrame, B ++ [v]⟩, .incomplete, 2⟩ := by
  have esc_step := decStep_inFrame_esc hv B
  have code_step := hcode.trans (appendByte_of_lt v h)
  simp [decRun, esc_step, code_step]

/-- The wire bytes of one content byte put that byte in the buffer, while there is room (R100, R107). -/
theorem decRun_stuffByte {p : Params} (hv : p.Valid) {B : Bytes} (b : Byte)
    (h : B.length < p.maxFrameLen) :
    decRun p ⟨.inFrame, B⟩ (stuffByte p b) =
      ⟨⟨.inFrame, B ++ [b]⟩, .incomplete, (stuffByte p b).length⟩ := by
  unfold stuffByte
  by_cases hd : b = p.delim
  · rw [if_pos hd, hd]
    exact decRun_escapeSequence hv (decStep_escape_delimCode hv B) h
  by_cases he : b = p.esc
  · rw [if_neg hd, if_pos he, he]
    exact decRun_escapeSequence hv (decStep_escape_escCode hv B) h
  · have plain_step := (decStep_inFrame_plain B hd he).trans (appendByte_of_lt b h)
    simp [hd, he, decRun, plain_step]

/-- Stuffed content that fits in the buffer is appended to it, byte by byte (R100, R104, R105). -/
theorem decRun_stuff {p : Params} (hv : p.Valid) {B : Bytes} (F : Bytes)
    (h : B.length + F.length ≤ p.maxFrameLen) :
    decRun p ⟨.inFrame, B⟩ (stuff p F) = ⟨⟨.inFrame, B ++ F⟩, .incomplete, (stuff p F).length⟩ := by
  induction F generalizing B with
  | nil => simp [stuff]
  | cons b F ih =>
    rw [List.length_cons] at h
    have first := decRun_stuffByte hv b (B := B) (by omega)
    have others := ih (B := B ++ [b]) (by rw [List.length_append, List.length_singleton]; omega)
    rw [stuff, decRun_append_of_incomplete _ (by rw [first]), first, others]
    simp

/-- An open frame from reset: `DELIM` and stuffed content leave `IN_FRAME` with that content. -/
theorem decRun_openFrame {p : Params} (hv : p.Valid) {F : Bytes} (h : F.length ≤ p.maxFrameLen) :
    decRun p Decoder.reset (p.delim :: stuff p F) =
      ⟨⟨.inFrame, F⟩, .incomplete, (stuff p F).length + 1⟩ := by
  have opened : decStep p Decoder.reset p.delim = (⟨.inFrame, []⟩, .incomplete) := decStep_hunt_delim p []
  have content := decRun_stuff hv (B := []) F (by simpa using h)
  rw [decRun_cons_incomplete _ (by rw [opened]), opened, content, List.nil_append]

/-- An `ESC` after an open frame's content leaves `ESCAPE` with that content. -/
theorem decRun_openFrame_esc {p : Params} (hv : p.Valid) {F : Bytes} (h : F.length ≤ p.maxFrameLen) :
    (decRun p Decoder.reset (p.delim :: stuff p F ++ [p.esc])).dec = ⟨.escape, F⟩ := by
  have opened := decRun_openFrame hv h
  rw [decRun_append_of_incomplete _ (by rw [opened]), opened]
  simp [decRun, decStep_inFrame_esc hv F]

/-! ### The statements -/

/-- A SLIP block with nothing issued, the witness of what reads and writes the decoder state. -/
def slipBlock (d : Decoder) : State := ⟨Params.slip 4 0, d, [], []⟩

/-- Settles O34: `step_inv` for the steps; a content of `n` bytes, stuffed, reaches `IN_FRAME`, and an
`ESC` after it `ESCAPE`, with a buffer of `n` bytes. -/
theorem decoderInvariantIsKeptByEveryStep : Obligations.DecoderInvariantIsKeptByEveryStep := by
  refine ⟨fun _ _ => step_inv, decoder_reset_inv _, fun p n hv hn => ?_⟩
  have room : (List.replicate n (0 : Byte)).length ≤ p.maxFrameLen := by rwa [List.length_replicate]
  have inFrame : (decRun p Decoder.reset (p.delim :: stuff p (List.replicate n 0))).dec =
      ⟨.inFrame, List.replicate n 0⟩ := by rw [decRun_openFrame hv room]
  have escape := decRun_openFrame_esc hv room
  exact ⟨_, _, _, _,
    exec_eq (.fdec _) _, congrArg Decoder.rxState inFrame,
    (congrArg rxLen inFrame).trans List.length_replicate,
    exec_eq (.fdec _) _, congrArg Decoder.rxState escape,
    (congrArg rxLen escape).trans List.length_replicate⟩

/-- Settles O14: each row of R28's table through `exec_eq`, `step_of_reserved` for the last. `DELIM`
is absorbed in `HUNT` and delivers the content in `IN_FRAME`, so FDECB and FDEC read and write. -/
theorem decoderAccessByOperation : Obligations.DecoderAccessByOperation := by
  refine ⟨fun i s d hi => ?_, fun s d => ?_, fun s => ⟨_, exec_eq .fstat s⟩, ?_, ?_, ?_, ?_⟩
  · obtain ⟨same_dec, -⟩ := stateless_access hi s.params s.dec
    obtain ⟨same_dec', same_record⟩ := stateless_access hi s.params d
    refine ⟨recordOf s.params d i, ?_, ?_⟩
    · rw [exec_eq, same_dec, same_record]
    · rw [exec_eq, same_dec']
  · exact ⟨_, exec_eq .frst s, exec_eq .frst { s with dec := d }, rfl⟩
  · exact ⟨slipBlock ⟨.hunt, []⟩, ⟨.skip, []⟩, _, _, exec_eq _ _, exec_eq _ _, by decide⟩
  · exact ⟨0xC0, slipBlock ⟨.hunt, []⟩, ⟨.inFrame, [1]⟩, _, _, exec_eq _ _, exec_eq _ _,
      by decide, by decide⟩
  · exact ⟨[0xC0], slipBlock ⟨.hunt, []⟩, ⟨.inFrame, [1]⟩, _, _, exec_eq _ _, exec_eq _ _,
      by decide, by decide⟩
  · exact fun s r rest e hv hin hd => ⟨_, fun d => step_of_reserved (s := { s with dec := d }) hv hin hd⟩

/-- Settles O11: the fields of `State.reset`. -/
theorem resetStateIsHuntWithEmptyBuffer : Obligations.ResetStateIsHuntWithEmptyBuffer :=
  ⟨reset_rxState, rfl, reset_rxBuf, rfl⟩

/-- Settles O15: by `exec_eq` the decoder left and the record depend on parameters and decoder alone. -/
theorem otherRequestsAreNeverRead : Obligations.OtherRequestsAreNeverRead :=
  fun i s rs ins => ⟨_, _, exec_eq i s, exec_eq i { s with results := rs, inputs := ins }⟩

/-- Settles O35: an empty buffer is legal whatever `MAX_FRAME_LEN` is. -/
theorem decoderInvariantHoldsAtReset : Obligations.DecoderInvariantHoldsAtReset :=
  decoder_reset_inv Config.params

end Sys2Proof.Proofs
end

section
/-! The proofs of the statements about 20_memory.md: requests performed wholly and in issue order (R45,
R48), which requests have a side effect and what a repeated one returns (R47). -/

namespace Sys2Proof.Proofs

open Sys2Proof Sys2Proof.Machine

/-! ### One request -/

/-- The decoder reads back the operation a request was encoded from (R61, R63). -/
theorem decode_encode (i : Instr) : decode (encode i) = .ok i := by
  cases i with
  | pparseRsp W K => cases W <;> rfl
  | _ => rfl

/-- The state a request leaves (R45: wholly performed), as a function of the state it finds. -/
def afterRequest (s : State) (i : Instr) : State :=
  { s with
    dec := decAfter s.params s.dec i
    results := s.results ++ [recordOf s.params s.dec i] }

/-- `afterRequest` is what `exec` answers. -/
theorem exec_eq_afterRequest (i : Instr) (s : State) : exec i s = .next (afterRequest s i) :=
  exec_eq i s

/-- A request whose word decodes is performed on the state from which it has been taken (R45, R60). -/
theorem step_of_decoded {s : State} {r : Request} {rest : List Input} {i : Instr}
    (hv : s.params.Valid) (hin : s.inputs = .request r :: rest) (hd : decode r = .ok i) :
    step s = exec i { s with inputs := rest } := by
  obtain ⟨h, -⟩ | ⟨_, h, -⟩ | ⟨_, _, _, h, hok, hs⟩ | ⟨_, _, _, h, herr, -⟩ := step_cases hv
  · simp [hin] at h
  · simp [hin] at h
  · obtain ⟨rfl, rfl⟩ : _ ∧ _ := by simpa [hin] using h
    obtain rfl := Except.ok.inj (hd.symm.trans hok)
    exact hs
  · obtain ⟨rfl, -⟩ : _ ∧ _ := by simpa [hin] using h
    simp [hd] at herr

/-! ### Requests in issue order -/

/-- Performing operations one after another is folding `afterRequest` over them. -/
theorem runInstrs_eq_foldl (is : List Instr) (s : State) :
    runInstrs is s = .next (is.foldl afterRequest s) := by
  induction is generalizing s with
  | nil => rfl
  | cons i is ih => simp only [runInstrs, exec_eq_afterRequest, ih, List.foldl_cons]

/-- Each operation returns one record (R62). -/
theorem foldl_afterRequest_results_length (is : List Instr) (s : State) :
    (is.foldl afterRequest s).results.length = s.results.length + is.length := by
  induction is generalizing s with
  | nil => rfl
  | cons i is ih =>
    rw [List.foldl_cons, ih]
    simp only [afterRequest, List.length_append, List.length_cons, List.length_nil]
    omega

/-- Operations neither read nor take an input. -/
theorem foldl_afterRequest_inputs (is : List Instr) (s : State) (ins : List Input) :
    is.foldl afterRequest { s with inputs := ins } =
      { is.foldl afterRequest s with inputs := ins } := by
  induction is generalizing s with
  | nil => rfl
  | cons i is ih => exact ih (afterRequest s i)

/-- What operations leave, apart from the inputs, is the same whatever inputs they found. -/
theorem foldl_afterRequest_congr_inputs (is : List Instr) (s : State) (ins rest : List Input) :
    { is.foldl afterRequest { s with inputs := ins } with inputs := rest } =
      { is.foldl afterRequest s with inputs := rest } := by
  rw [foldl_afterRequest_inputs]

/-- A run whose first step answers a next state goes on from there, on any machine. -/
theorem run_succ_of_next {M : Host.Core} {s t : M.State} (k : Nat) (h : M.step s = .next t) :
    M.run (k + 1) s = M.run k t := by
  rw [Host.Core.run, h]

/-- A run takes the requests issued from the head of the inputs, one a step, and performs each on what the
ones before it left (R45, R48). -/
theorem run_issued {s : State} (is : List Instr) (rest : List Input) (hv : s.params.Valid)
    (hin : s.inputs = is.map (fun i => .request (encode i)) ++ rest) :
    Sys2Proof.core.run is.length s = .next { is.foldl afterRequest s with inputs := rest } := by
  induction is generalizing s with
  | nil =>
    obtain rfl : s.inputs = rest := hin
    rfl
  | cons i is ih =>
    have first := (step_of_decoded hv hin (decode_encode i)).trans (exec_eq_afterRequest i _)
    have others := ih (s := afterRequest { s with inputs := _ } i) hv rfl
    exact (run_succ_of_next (M := Sys2Proof.core) _ first).trans
      (others.trans (congrArg Host.Outcome.next (foldl_afterRequest_congr_inputs is (afterRequest s i) _ _)))

/-! ### Side effects -/

/-- Only FDECB, FDEC and FRST write the decoder (R28): the other operations return their record and change
nothing else of the block (R47). -/
theorem exec_of_no_side_effect {i : Instr}
    (hi : i.mnemonic ∈ ["FENC", "CSUM", "PBUILD", "PPARSE_CMD", "PPARSE_RSP", "FSTAT"]) (s : State) :
    exec i s = .next { s with results := s.results ++ [recordOf s.params s.dec i] } := by
  cases i with
  | fdecb b => simp [Instr.mnemonic] at hi
  | fdec S => simp [Instr.mnemonic] at hi
  | frst => simp [Instr.mnemonic] at hi
  | _ => exact exec_eq _ s

/-! ### The statements -/

/-- Settles O37: both runs are folds of `afterRequest`, and the inputs are not part of what it reads. -/
theorem runPerformsRequestsInIssueOrder : Obligations.RunPerformsRequestsInIssueOrder := by
  intro s is rest hv hin
  exact ⟨_, runInstrs_eq_foldl is _, foldl_afterRequest_results_length is _,
    (run_issued is rest hv hin).trans
      (congrArg Host.Outcome.next (foldl_afterRequest_congr_inputs is s [] rest).symm)⟩

/-- Settles O16: `exec_of_no_side_effect` twice, the second time with the same parameters and decoder. In
`HUNT` a first `DELIM` opens a frame, which is INCOMPLETE; a second one ends it, which is OK. -/
theorem sideEffectsAndIdempotency : Obligations.SideEffectsAndIdempotency := by
  refine ⟨fun i s hi => ?_, fun s => ?_, ?_, ?_⟩
  · exact ⟨_, exec_of_no_side_effect hi s, exec_of_no_side_effect hi _⟩
  · exact ⟨_, _, exec_eq .frst s, exec_eq .frst _, rfl, rfl⟩
  · exact ⟨0xC0, slipBlock .reset, _, _, _, _, exec_eq _ _, exec_eq _ _, rfl, rfl, by decide⟩
  · exact ⟨[0xC0], slipBlock .reset, _, _, _, _, exec_eq _ _, exec_eq _ _, rfl, rfl, by decide⟩

/-- Settles O7: `step_of_decoded`, the one case of `step_cases` that such an input leaves. -/
theorem stepPerformsTheDecodedRequest : Obligations.StepPerformsTheDecodedRequest :=
  fun _ _ _ _ => step_of_decoded

end Sys2Proof.Proofs
end

section
/-! The proofs of the statements about request words (30_encoding.md R60, R61, R63, R64, R205): what the
decoder selects, what it rejects, and the opcode table. -/

namespace Sys2Proof.Proofs

open Sys2Proof Sys2Proof.Machine

/-! ### The fields of a request word -/

/-- `OP` in arithmetic (R61). -/
theorem opField_toNat (w : Byte) : (opField w).toNat = w.toNat % 16 := by
  simp [opField]

/-- `W = 0` in arithmetic (R61). -/
theorem widthField_eq_zero_iff (w : Byte) : widthField w = 0 ↔ w.toNat / 16 % 2 = 0 := by
  simp [widthField, ← BitVec.toNat_inj, Nat.shiftRight_eq_div_pow]

/-- `RSV = 0` in arithmetic (R61). -/
theorem rsvField_eq_zero_iff (w : Byte) : rsvField w = 0 ↔ w.toNat / 32 = 0 := by
  have bound := w.isLt
  simp [rsvField, ← BitVec.toNat_inj, Nat.shiftRight_eq_div_pow]
  omega

/-! ### Reserved words -/

/-- The conditions of R64 on the fields of a request word, in arithmetic. -/
abbrev ReservedFields (w : Byte) : Prop :=
  w.toNat % 16 = 0 ∨ 10 ≤ w.toNat % 16 ∨ w.toNat / 32 ≠ 0 ∨
    (w.toNat / 16 % 2 = 1 ∧ w.toNat % 16 ≠ 9)

/-- An operation that takes no width is rejected when bit 4 is 1 (R64). -/
theorem withoutWidth_of_width {w : Byte} (i : Instr) (h : w.toNat / 16 % 2 = 1) :
    withoutWidth w i = .error .widthNotZero :=
  if_neg (by rw [widthField_eq_zero_iff]; omega)

/-- The decoder rejects every word that meets a condition of R64. -/
theorem decode_of_reserved {r : Request} (h : ReservedFields r.word) : ∃ e, decode r = .error e := by
  obtain ⟨w, b, S⟩ := r
  change ReservedFields w at h
  by_cases hrsv : rsvField w = 0
  · have rsv_zero := (rsvField_eq_zero_iff w).1 hrsv
    simp only [decode, hrsv, ne_eq, not_true_eq_false, if_false, opField_toNat]
    split
    case h_9 op_eq => omega
    case h_10 => exact ⟨_, rfl⟩
    all_goals exact ⟨_, withoutWidth_of_width _ (by omega)⟩
  · exact ⟨.rsvNotZero, if_pos hrsv⟩

/-! ### The operations -/

/-- The rows of R63: which request selects which operation, with the operands the operation takes; what
stands in the place of an untaken operand is arbitrary (R60). -/
inductive Selects : Request → Instr → Prop
  | fenc (b : Byte) (F : Bytes) : Selects ⟨0x01, b, F⟩ (.fenc F)
  | fdecb (b : Byte) (S : Bytes) : Selects ⟨0x02, b, S⟩ (.fdecb b)
  | fdec (b : Byte) (S : Bytes) : Selects ⟨0x03, b, S⟩ (.fdec S)
  | frst (b : Byte) (S : Bytes) : Selects ⟨0x04, b, S⟩ .frst
  | fstat (b : Byte) (S : Bytes) : Selects ⟨0x05, b, S⟩ .fstat
  | csum (b : Byte) (P : Bytes) : Selects ⟨0x06, b, P⟩ (.csum P)
  | pbuild (op : Byte) (P : Bytes) : Selects ⟨0x07, op, P⟩ (.pbuild op P)
  | pparseCmd (b : Byte) (K : Bytes) : Selects ⟨0x08, b, K⟩ (.pparseCmd K)
  | pparseRspS2 (b : Byte) (K : Bytes) : Selects ⟨0x09, b, K⟩ (.pparseRsp .s2 K)
  | pparseRspS4 (b : Byte) (K : Bytes) : Selects ⟨0x19, b, K⟩ (.pparseRsp .s4 K)

/-- The decoder follows R63. -/
theorem decode_of_selects {r : Request} {i : Instr} (h : Selects r i) : decode r = .ok i := by
  cases h <;> rfl

/-- The words that R64 leaves are ten. -/
theorem word_cases {w : Byte} (h : ¬ ReservedFields w) :
    w = 0x01 ∨ w = 0x02 ∨ w = 0x03 ∨ w = 0x04 ∨ w = 0x05 ∨ w = 0x06 ∨ w = 0x07 ∨ w = 0x08 ∨
      w = 0x09 ∨ w = 0x19 := by
  have bound := w.isLt
  simp only [← BitVec.toNat_inj, BitVec.ofNat_eq_ofNat, BitVec.toNat_ofNat]
  omega

/-- R63 has a row for every word that R64 leaves. -/
theorem exists_selects {r : Request} (h : ¬ ReservedFields r.word) : ∃ i, Selects r i := by
  obtain ⟨w, b, S⟩ := r
  obtain rfl | rfl | rfl | rfl | rfl | rfl | rfl | rfl | rfl | rfl := word_cases h
  · exact ⟨_, .fenc b S⟩
  · exact ⟨_, .fdecb b S⟩
  · exact ⟨_, .fdec b S⟩
  · exact ⟨_, .frst b S⟩
  · exact ⟨_, .fstat b S⟩
  · exact ⟨_, .csum b S⟩
  · exact ⟨_, .pbuild b S⟩
  · exact ⟨_, .pparseCmd b S⟩
  · exact ⟨_, .pparseRspS2 b S⟩
  · exact ⟨_, .pparseRspS4 b S⟩

/-- A word is rejected exactly when it meets a condition of R64. -/
theorem decode_error_iff (r : Request) : (∃ e, decode r = .error e) ↔ ReservedFields r.word := by
  refine ⟨fun ⟨e, he⟩ => ?_, decode_of_reserved⟩
  by_contra legal
  obtain ⟨i, hi⟩ := exists_selects legal
  simp [decode_of_selects hi] at he

/-- A word selects an operation exactly when it meets no condition of R64. -/
theorem decode_ok_iff (r : Request) : (∃ i, decode r = .ok i) ↔ ¬ ReservedFields r.word := by
  rw [← decode_error_iff]
  rcases decode r with e | i <;> simp

/-- Everything the decoder accepts is a row of R63, and conversely. -/
theorem decode_eq_ok_iff {r : Request} {i : Instr} : decode r = .ok i ↔ Selects r i := by
  refine ⟨fun h => ?_, decode_of_selects⟩
  obtain ⟨j, hj⟩ := exists_selects ((decode_ok_iff r).1 ⟨i, h⟩)
  obtain rfl := Except.ok.inj (h.symm.trans (decode_of_selects hj))
  exact hj

/-- The encoder writes the word the decoder accepted (R61). -/
theorem encode_word_of_decode {r : Request} {i : Instr} (h : decode r = .ok i) :
    (encode i).word = r.word := by
  cases decode_eq_ok_iff.1 h <;> rfl

/-- Each operand lane of an accepted request holds what the encoder puts there, or the decoder does not
look at it (R60). -/
theorem encode_lanes_of_selects {r : Request} {i : Instr} (h : Selects r i) :
    ((encode i).byteArg = r.byteArg ∨ ∀ b, decode { r with byteArg := b } = .ok i) ∧
    ((encode i).bytesArg = r.bytesArg ∨ ∀ S, decode { r with bytesArg := S } = .ok i) := by
  cases h with
  | fenc b F => exact ⟨.inr fun b => decode_of_selects (.fenc b F), .inl rfl⟩
  | fdecb b S => exact ⟨.inl rfl, .inr fun S => decode_of_selects (.fdecb b S)⟩
  | fdec b S => exact ⟨.inr fun b => decode_of_selects (.fdec b S), .inl rfl⟩
  | frst b S =>
    exact ⟨.inr fun b => decode_of_selects (.frst b S), .inr fun S => decode_of_selects (.frst b S)⟩
  | fstat b S =>
    exact ⟨.inr fun b => decode_of_selects (.fstat b S), .inr fun S => decode_of_selects (.fstat b S)⟩
  | csum b P => exact ⟨.inr fun b => decode_of_selects (.csum b P), .inl rfl⟩
  | pbuild op P => exact ⟨.inl rfl, .inl rfl⟩
  | pparseCmd b K => exact ⟨.inr fun b => decode_of_selects (.pparseCmd b K), .inl rfl⟩
  | pparseRspS2 b K => exact ⟨.inr fun b => decode_of_selects (.pparseRspS2 b K), .inl rfl⟩
  | pparseRspS4 b K => exact ⟨.inr fun b => decode_of_selects (.pparseRspS4 b K), .inl rfl⟩

/-- The request word of every operation is legal (R64). -/
theorem legalWord (i : Instr) : Laws.LegalWord.Statement i := by
  cases i with
  | fenc F => exact Laws.LegalWord.fenc F
  | fdecb b => exact Laws.LegalWord.fdecb b
  | fdec S => exact Laws.LegalWord.fdec S
  | frst => exact Laws.LegalWord.frst
  | fstat => exact Laws.LegalWord.fstat
  | csum P => exact Laws.LegalWord.csum P
  | pbuild op P => exact Laws.LegalWord.pbuild op P
  | pparseCmd K => exact Laws.LegalWord.pparseCmd K
  | pparseRsp W K => exact Laws.LegalWord.pparseRsp W K

/-- `reservedWord` rejects no word the encoder writes (R64). -/
theorem reservedWord_encode (i : Instr) : reservedWord (encode i).word = false := by
  obtain ⟨wellFormed, -⟩ := legalWord i
  simpa [Request.wellFormed] using wellFormed

/-! ### The opcode table -/

/-- A word is a row's when it has the row's pattern under the row's mask. -/
theorem matchesWord_iff {row : OpcodeRow} {w : Byte} :
    row.matchesWord w = true ↔ w &&& row.mask = row.pattern :=
  beq_iff_eq

/-- A row matches the words of the operations with its mnemonic, and no other operation's. -/
theorem matchesWord_encode_iff (i : Instr) :
    ∀ row ∈ opcodeTable, row.matchesWord (encode i).word = true ↔ row.mnemonic = i.mnemonic := by
  cases i with
  | pparseRsp W K =>
    cases W <;> simp [opcodeTable, OpcodeRow.matchesWord, encode, requestWord, widthBitOf, Instr.mnemonic]
  | _ => simp [opcodeTable, OpcodeRow.matchesWord, encode, requestWord, Instr.mnemonic]

/-- Every operation has a row. -/
theorem exists_row_of_mnemonic (i : Instr) : ∃ row ∈ opcodeTable, row.mnemonic = i.mnemonic := by
  cases i <;> simp [opcodeTable, Instr.mnemonic]

/-- `OP` in a word that a row matches is the row's: no mask drops a bit of `OP`, and every pattern is an
`OP` alone. -/
theorem op_of_matchesWord {row : OpcodeRow} (hrow : row ∈ opcodeTable) {w : Byte}
    (h : row.matchesWord w = true) : w &&& 0x0F = row.pattern := by
  have op_fixed : ∀ row ∈ opcodeTable, row.mask &&& 0x0F = 0x0F ∧ row.pattern &&& 0x0F = row.pattern := by
    decide
  obtain ⟨mask_keeps, pattern_is_op⟩ := op_fixed row hrow
  have masked := matchesWord_iff.1 h
  calc w &&& 0x0F = w &&& row.mask &&& 0x0F := by rw [BitVec.and_assoc, mask_keeps]
    _ = row.pattern := by rw [masked, pattern_is_op]

/-- A word that a row matches meets no condition of R64. All rows but PPARSE_RSP's match one word; bit 4 is
free in that one. -/
theorem not_reserved_of_matchesWord {row : OpcodeRow} (hrow : row ∈ opcodeTable) {w : Byte}
    (h : row.matchesWord w = true) : ¬ ReservedFields w := by
  have rows : ∀ row ∈ opcodeTable, row.mask = 0xFF ∧ ¬ ReservedFields row.pattern ∨
      row.mask = 0xEF ∧ row.pattern = 0x09 := by decide
  have width_free : ∀ w : Byte, w &&& 0xEF = 0x09 → ¬ ReservedFields w := by decide
  have masked := matchesWord_iff.1 h
  obtain ⟨full, legal⟩ | ⟨free, pattern_eq⟩ := rows row hrow
  · have word_eq : w = row.pattern := by
      rw [← masked, full]
      exact (BitVec.and_allOnes (x := w)).symm
    rwa [word_eq]
  · rw [free, pattern_eq] at masked
    exact width_free w masked

/-! ### The statements -/

/-- Settles O1: `decode_encode` with `reservedWord_encode`, and `Selects` row by row. -/
theorem decodeOfEncodeIsTheInstruction : Obligations.DecodeOfEncodeIsTheInstruction :=
  ⟨fun i => ⟨decode_encode i, reservedWord_encode i⟩,
    fun _ _ h => ⟨encode_word_of_decode h, encode_lanes_of_selects (decode_eq_ok_iff.1 h)⟩⟩

/-- Settles O2: the rows of `Selects`, and `decode_ok_iff` for the words that are in none. -/
theorem requestWordMap : Obligations.RequestWordMap := by
  refine ⟨fun b S => ?_, fun r => ?_⟩
  · exact ⟨decode_of_selects (.fenc b S), decode_of_selects (.fdecb b S), decode_of_selects (.fdec b S),
      decode_of_selects (.frst b S), decode_of_selects (.fstat b S), decode_of_selects (.csum b S),
      decode_of_selects (.pbuild b S), decode_of_selects (.pparseCmd b S),
      decode_of_selects (.pparseRspS2 b S), decode_of_selects (.pparseRspS4 b S)⟩
  · have bound := r.word.isLt
    simp only [decode_ok_iff, List.mem_cons, List.not_mem_nil, or_false]
    omega

/-- Settles O3: an accepted word is one the encoder writes, so `matchesWord_encode_iff` tells its rows; a
word outside the ten meets R64, which no row's words do; two rows never share their `OP`. -/
theorem decoderAgreesWithOpcodeTable : Obligations.DecoderAgreesWithOpcodeTable := by
  refine ⟨fun r i h => ?_, fun r => ⟨fun h row hrow => ?_, fun none_matches => ?_⟩, ?_⟩
  · rw [← encode_word_of_decode h]
    exact matchesWord_encode_iff i
  · rw [decode_error_iff] at h
    by_contra row_matches
    exact not_reserved_of_matchesWord hrow (by simpa using row_matches) h
  · rw [decode_error_iff]
    by_contra legal
    obtain ⟨i, hi⟩ := (decode_ok_iff r).2 legal
    obtain ⟨row, hrow, hm⟩ := exists_row_of_mnemonic i
    have row_matches := (matchesWord_encode_iff i row hrow).2 hm
    rw [encode_word_of_decode hi, none_matches row hrow] at row_matches
    exact Bool.false_ne_true row_matches
  · have distinct_ops : opcodeTable.Pairwise fun a b => a.pattern ≠ b.pattern := by decide
    exact distinct_ops.imp_of_mem fun ha hb hne w ⟨ma, mb⟩ =>
      hne ((op_of_matchesWord ha ma).symm.trans (op_of_matchesWord hb mb))

/-- Settles O5: R64's conditions decide between `step_of_reserved` and `step_of_decoded`. -/
theorem reservedWordsReturnBadRequest : Obligations.ReservedWordsReturnBadRequest := by
  intro s r rest hv hin
  split
  next reserved =>
    obtain ⟨e, he⟩ := decode_of_reserved reserved
    exact step_of_reserved hv hin he
  next legal =>
    obtain ⟨i, hi⟩ := (decode_ok_iff r).2 legal
    exact ⟨i, hi, step_of_decoded hv hin hi⟩

/-- Settles O4: five rows of R63, and a word for each condition of R64 evaluated. -/
theorem sampleRequestWordsDecode : Obligations.SampleRequestWordsDecode :=
  ⟨decode_of_selects (.fenc 0 _), decode_of_selects (.fdecb _ []), decode_of_selects (.pbuild _ _),
    decode_of_selects (.pparseRspS2 0 _), decode_of_selects (.pparseRspS4 0 _), rfl, rfl, rfl⟩

end Sys2Proof.Proofs
end

section
/-! The proof of the statement about whole runs (30_encoding.md R62, 60_exceptions.md R211, R250): from a
legal state every step answers, and the records count the requests performed. -/

namespace Sys2Proof.Proofs

open Sys2Proof Sys2Proof.Machine

/-! ### One step of a legal block -/

/-- No inputs hold no request. -/
@[simp] theorem requestCount_nil : requestCount [] = 0 := rfl

/-- A request is counted (R62). -/
@[simp] theorem requestCount_request (r : Request) (ins : List Input) :
    requestCount (.request r :: ins) = requestCount ins + 1 := by
  simp [requestCount]

/-- A power-on reset is not counted (R240). -/
@[simp] theorem requestCount_powerOnReset (ins : List Input) :
    requestCount (.powerOnReset :: ins) = requestCount ins := by
  simp [requestCount]

/-- The records returned and those the issued requests will return: what a step keeps in sum. -/
def recordsDue (s : State) : Nat := s.results.length + requestCount s.inputs

/-- A step of a valid block takes one input, if there is one, and returns a record for it when it is a
request (R45, R62). -/
theorem step_takes_input {s : State} (hv : s.params.Valid) :
    ∃ t, step s = .next t ∧ t.inputs = s.inputs.drop 1 ∧ recordsDue t = recordsDue s := by
  obtain ⟨hin, h⟩ | ⟨rest, hin, h⟩ | ⟨r, rest, i, hin, -, h⟩ | ⟨r, rest, e, hin, -, h⟩ := step_cases hv
  · exact ⟨_, h, by simp [hin], rfl⟩
  · exact ⟨_, h, by simp [hin], by simp [recordsDue, hin]⟩
  · refine ⟨_, h.trans (exec_eq i _), by simp [hin], ?_⟩
    simp only [recordsDue, hin, List.length_append, List.length_singleton, requestCount_request]
    omega
  · refine ⟨_, h, by simp [hin], ?_⟩
    simp only [recordsDue, hin, List.length_append, List.length_singleton, requestCount_request]
    omega

/-- The step leads from a legal state to a legal one, with its parameters (R27, R29). -/
theorem step_legal {s t : State} (hs : s.Legal) (h : step s = .next t) :
    t.Legal ∧ t.params = s.params := by
  obtain ⟨valid, inv⟩ := hs
  have same := step_params h
  exact ⟨⟨by rw [same]; exact valid, step_inv inv h⟩, same⟩

/-! ### Runs -/

/-- A run of `k` steps from a legal state does not stop (R211), takes the first `k` inputs and keeps what
each step keeps. -/
theorem run_of_legal {s : State} (hs : s.Legal) (k : Nat) :
    ∃ t, Sys2Proof.core.run k s = .next t ∧ t.inputs = s.inputs.drop k ∧ t.Legal ∧
      t.params = s.params ∧ recordsDue t = recordsDue s := by
  induction k generalizing s with
  | zero => exact ⟨s, rfl, rfl, hs, rfl, rfl⟩
  | succ k ih =>
    obtain ⟨u, first, inputs_u, due_u⟩ := step_takes_input hs.1
    obtain ⟨legal_u, params_u⟩ := step_legal hs first
    obtain ⟨t, others, inputs_t, legal_t, params_t, due_t⟩ := ih legal_u
    refine ⟨t, (run_succ_of_next (M := Sys2Proof.core) k first).trans others, ?_, legal_t,
      params_t.trans params_u, due_t.trans due_u⟩
    rw [inputs_t, inputs_u, List.drop_drop, Nat.add_comm]

/-! ### The statement -/

/-- Settles O36: `run_of_legal` for any number of steps, and for as many as there are inputs, which leaves
none. -/
theorem runsPerformEveryInputAndNeverStop : Obligations.RunsPerformEveryInputAndNeverStop := by
  intro s hs
  have never_stops (k : Nat) : SafeFor k s := by
    obtain ⟨t, ht, -⟩ := run_of_legal hs k
    exact ⟨t, ht⟩
  obtain ⟨t, ht, inputs_t, legal_t, params_t, due⟩ := run_of_legal hs s.inputs.length
  rw [List.drop_length] at inputs_t
  exact ⟨never_stops, t, ht, inputs_t, legal_t, params_t, by simpa [recordsDue, inputs_t] using due⟩

end Sys2Proof.Proofs
end

section
/-! The proofs of the statements about result records and frames on the wire (30_encoding.md R62, R65, R68).
-/

namespace Sys2Proof.Proofs

open Sys2Proof Sys2Proof.Machine

/-! ### What the packet operations return -/

/-- Everything PBUILD can return (R142). -/
theorem buildCommand_cases (p : Params) (op : Byte) (P : Bytes) :
    (65535 < P.length ∧ buildCommand p op P = { code := .lengthOverflow }) ∨
    (P.length ≤ 65535 ∧ buildCommand p op P = { code := .ok, data := some (commandPacket p op P) }) := by
  unfold buildCommand
  by_cases long : 65535 < P.length
  · exact .inl ⟨long, if_pos long⟩
  · exact .inr ⟨by omega, if_neg long⟩

/-- Everything PPARSE_CMD can return (R143), `n` the declared length. -/
theorem parseCommand_cases (p : Params) (K : Bytes) : ∃ n, n = (le16 K 1).toNat ∧
    ((K.length < 3 ∧ parseCommand p K = { code := .malShort }) ∨
    (3 ≤ K.length ∧ K.length ≠ 7 + n ∧
      parseCommand p K = { code := .malLength, length := some n }) ∨
    (K.length = 7 + n ∧ le32 K (3 + n) ≠ zext 32 (csumOf p (slice K 3 (3 + n))) ∧
      parseCommand p K =
        { code := .malChecksum, checksum := some (le32 K (3 + n)),
          csum := some (csumOf p (slice K 3 (3 + n))) }) ∨
    (K.length = 7 + n ∧ le32 K (3 + n) = zext 32 (csumOf p (slice K 3 (3 + n))) ∧
      parseCommand p K =
        { code := .ok, opcode := some (byteAt K 0), payload := some (slice K 3 (3 + n)),
          checksum := some (le32 K (3 + n)) })) := by
  refine ⟨_, rfl, ?_⟩
  unfold parseCommand
  by_cases short : K.length < 3
  · exact .inl ⟨short, if_pos short⟩
  rw [if_neg short]
  by_cases wrong_length : K.length ≠ 7 + (le16 K 1).toNat
  · exact .inr (.inl ⟨by omega, wrong_length, if_pos wrong_length⟩)
  have right_length := not_not.1 wrong_length
  simp only [if_neg wrong_length]
  by_cases wrong_sum : le32 K (3 + (le16 K 1).toNat) ≠
      zext 32 (csumOf p (slice K 3 (3 + (le16 K 1).toNat)))
  · exact .inr (.inr (.inl ⟨right_length, wrong_sum, if_pos wrong_sum⟩))
  · exact .inr (.inr (.inr ⟨right_length, not_not.1 wrong_sum, if_neg wrong_sum⟩))

/-- Everything PPARSE_RSP can return (R144), `n` the declared length. -/
theorem parseResponse_cases (W : StatusWidth) (K : Bytes) : ∃ n, n = (le16 K 1).toNat ∧
    ((K.length < 3 ∧ parseResponse W K = { code := .malShort }) ∨
    (3 ≤ K.length ∧ K.length ≠ 3 + statusBytes W + n ∧
      parseResponse W K = { code := .malLength, length := some n }) ∨
    (K.length = 3 + statusBytes W + n ∧
      parseResponse W K =
        { code := .ok, opcode := some (byteAt K 0), status := some (slice K 3 (3 + statusBytes W)),
          payload := some (slice K (3 + statusBytes W) (3 + statusBytes W + n)) })) := by
  refine ⟨_, rfl, ?_⟩
  unfold parseResponse
  by_cases short : K.length < 3
  · exact .inl ⟨short, if_pos short⟩
  rw [if_neg short]
  by_cases wrong_length : K.length ≠ 3 + statusBytes W + (le16 K 1).toNat
  · exact .inr (.inl ⟨by omega, wrong_length, if_pos wrong_length⟩)
  · exact .inr (.inr ⟨not_not.1 wrong_length, if_neg wrong_length⟩)

/-- A slice inside its sequence has the length its bounds say (R5). -/
theorem length_slice {s : Bytes} {i j : Nat} (h : j ≤ s.length) : (slice s i j).length = j - i := by
  rw [slice, List.length_take, List.length_drop]
  omega

/-- A status that PPARSE_RSP returns has the width of its request word (R62, R144). -/
theorem parseResponse_status_length {W : StatusWidth} {K st : Bytes}
    (h : (parseResponse W K).status = some st) : st.length = statusBytes W := by
  obtain ⟨n, -, ⟨-, hr⟩ | ⟨-, -, hr⟩ | ⟨len, hr⟩⟩ := parseResponse_cases W K
  · simp [hr] at h
  · simp [hr] at h
  · obtain rfl : slice K 3 (3 + statusBytes W) = st := by simpa [hr] using h
    rw [length_slice (by omega)]
    omega

/-! ### The wire bytes of content -/

/-- No wire byte of content is a raw `DELIM` (R3, R65). -/
theorem delim_notMem_stuffByte {p : Params} (hv : p.Valid) (b : Byte) : p.delim ∉ stuffByte p b := by
  obtain ⟨delim_ne_esc, -, ⟨cd_ne_delim, -, ce_ne_delim, -⟩, -⟩ := hv
  unfold stuffByte
  by_cases hd : b = p.delim
  · simp [hd, delim_ne_esc, cd_ne_delim.symm]
  by_cases he : b = p.esc
  · simp [he, delim_ne_esc.symm, delim_ne_esc, ce_ne_delim.symm]
  · simp [hd, he, Ne.symm hd]

/-- The body of a frame holds no raw `DELIM` (R65). -/
theorem delim_notMem_stuff {p : Params} (hv : p.Valid) (F : Bytes) : p.delim ∉ stuff p F := by
  rw [stuff_eq_flatMap, List.mem_flatMap]
  exact fun ⟨b, _, hb⟩ => delim_notMem_stuffByte hv b hb

/-- An escaped byte is one byte longer on the wire (R65). -/
theorem length_stuffByte (p : Params) (b : Byte) : (stuffByte p b).length = 1 + escapedCount p [b] := by
  unfold stuffByte escapedCount
  by_cases hd : b = p.delim
  · simp [hd]
  by_cases he : b = p.esc
  · simp [hd, ← he]
  · simp [hd, he]

/-- The escaped bytes are counted one by one. -/
theorem escapedCount_cons (p : Params) (b : Byte) (F : Bytes) :
    escapedCount p (b :: F) = escapedCount p [b] + escapedCount p F := by
  simp only [escapedCount, ← List.length_append, ← List.filter_append, List.singleton_append]

/-- The wire length of content (R68). -/
theorem length_stuff (p : Params) (F : Bytes) : (stuff p F).length = F.length + escapedCount p F := by
  induction F with
  | nil => rfl
  | cons b F ih =>
    rw [stuff, List.length_append, length_stuffByte, ih, escapedCount_cons p b F, List.length_cons]
    omega

/-! ### The statements -/

/-- Settles O21: the body is `stuff p F`. -/
theorem frameEndsAtItsFirstRawDelimiter : Obligations.FrameEndsAtItsFirstRawDelimiter := by
  intro s F hv
  refine ⟨stuff s.params F, exec_eq (.fenc F) s, delim_notMem_stuff hv F, ?_⟩
  simp only [List.length_append, List.length_singleton, length_stuff]
  omega

/-- Settles O17: the record of each operation is `recordOf`, and each outcome's record holds the fields
written out in it; the width of a status is `parseResponse_status_length`. -/
theorem resultFieldsPresentByOperationAndOutcome :
    Obligations.ResultFieldsPresentByOperationAndOutcome := by
  refine ⟨fun i s => ⟨_, _, exec_eq i s, rfl, ?_⟩, badRequest_eq⟩
  cases i with
  | fenc F => simp [recordOf, Instr.mnemonic]
  | fdecb b =>
    simp only [recordOf]
    cases (decStep s.params s.dec b).2 <;> simp [decResult, Instr.mnemonic]
  | fdec S =>
    simp only [recordOf]
    cases (decRun s.params s.dec S).outcome <;> simp [decResult, Instr.mnemonic]
  | frst => simp [recordOf, Instr.mnemonic]
  | fstat => simp [recordOf, Instr.mnemonic]
  | csum P => simp [recordOf, Instr.mnemonic]
  | pbuild op P =>
    obtain ⟨-, h⟩ | ⟨-, h⟩ := buildCommand_cases s.params op P <;>
      simp [recordOf, h, Instr.mnemonic]
  | pparseCmd K =>
    obtain ⟨n, -, ⟨-, h⟩ | ⟨-, -, h⟩ | ⟨-, -, h⟩ | ⟨-, -, h⟩⟩ := parseCommand_cases s.params K <;>
      simp [recordOf, h, Instr.mnemonic]
  | pparseRsp W K =>
    obtain ⟨n, -, ⟨-, h⟩ | ⟨-, -, h⟩ | ⟨-, h⟩⟩ := parseResponse_cases W K
    · simp [recordOf, h, Instr.mnemonic]
    · simp [recordOf, h, Instr.mnemonic]
    · have width : (slice K 3 (3 + statusBytes W)).length = statusBytes W :=
        parseResponse_status_length (by rw [h])
      cases W <;> simpa [recordOf, h, Instr.mnemonic, statusBytes] using width

end Sys2Proof.Proofs
end

section
/-! The proofs of the statements about the text form of requests (30_encoding.md R71, R72): the tokens of what
the writer writes, and what the reader makes of them. -/

namespace Sys2Proof.Proofs

open Sys2Proof Sys2Proof.Machine

/-! ### Tokens -/

/-- A character that belongs to a word: neither white space nor a mark nor the start of a comment. -/
abbrev WordChar (c : Char) : Prop := c ∉ [';', ' ', '\t', '\r', '\n', '[', ']', ',']

/-- A text that ends the line: nothing of it is a token. -/
def EndsLine (cs : List Char) : Prop := ∀ acc, tokens cs acc = flushWord acc []

/-- The end of the text ends the line. -/
theorem endsLine_nil : EndsLine [] := fun _ => rfl

/-- A comment ends the line (R71). -/
theorem endsLine_comment (cs : List Char) : EndsLine (';' :: cs) := fun _ => rfl

/-- No word has been read. -/
@[simp] theorem flushWord_nil (ts : List Token) : flushWord [] ts = ts := rfl

/-- A word has been read. -/
theorem flushWord_reverse {w : List Char} (hw : w ≠ []) (ts : List Token) :
    flushWord w.reverse ts = .word w :: ts := by
  simp [flushWord, hw]

/-- A space ends a word. -/
theorem tokens_space (cs acc : List Char) : tokens (' ' :: cs) acc = flushWord acc (tokens cs []) := rfl

/-- A comma ends a word and is a token. -/
theorem tokens_comma (cs acc : List Char) :
    tokens (',' :: cs) acc = flushWord acc (.comma :: tokens cs []) := rfl

/-- An opening bracket ends a word and is a token. -/
theorem tokens_openBracket (cs acc : List Char) :
    tokens ('[' :: cs) acc = flushWord acc (.openBracket :: tokens cs []) := rfl

/-- A closing bracket ends a word and is a token. -/
theorem tokens_closeBracket (cs acc : List Char) :
    tokens (']' :: cs) acc = flushWord acc (.closeBracket :: tokens cs []) := rfl

/-- A word is read character by character. -/
theorem tokens_word {w : List Char} (hw : ∀ c ∈ w, WordChar c) (cs acc : List Char) :
    tokens (w ++ cs) acc = tokens cs (w.reverse ++ acc) := by
  induction w generalizing acc with
  | nil => rfl
  | cons c w ih =>
    obtain ⟨hc, hw⟩ := List.forall_mem_cons.1 hw
    simp only [WordChar, List.mem_cons, List.not_mem_nil, or_false, not_or] at hc
    obtain ⟨semicolon, space, tab, ret, newline, openB, closeB, comma⟩ := hc
    have reads_c : tokens (c :: (w ++ cs)) acc = tokens (w ++ cs) (c :: acc) := by
      simp [tokens, semicolon, space, tab, ret, newline, openB, closeB, comma]
    rw [List.cons_append, reads_c, ih hw]
    simp

/-! ### Bytes -/

/-- The digits read back, and are characters of words. -/
theorem hexDigit_spec : ∀ n < 16, hexValue (hexDigit n) = some n ∧ WordChar (hexDigit n) := by
  decide

/-- The digits of a byte. -/
theorem nibbles_lt (b : Byte) : b.toNat / 16 < 16 ∧ b.toNat % 16 < 16 := by
  have bound := b.isLt
  omega

/-- A written byte is a word. -/
theorem wordChar_of_mem_writeByte {b : Byte} : ∀ c ∈ writeByte b, WordChar c := by
  obtain ⟨high, low⟩ := nibbles_lt b
  obtain ⟨-, high_char⟩ := hexDigit_spec _ high
  obtain ⟨-, low_char⟩ := hexDigit_spec _ low
  exact List.forall_mem_cons.2 ⟨high_char, List.forall_mem_singleton.2 low_char⟩

/-- A written byte reads back (R71). -/
@[simp] theorem readByte_writeByte (b : Byte) : readByte (writeByte b) = some b := by
  obtain ⟨high, low⟩ := nibbles_lt b
  obtain ⟨high_value, -⟩ := hexDigit_spec _ high
  obtain ⟨low_value, -⟩ := hexDigit_spec _ low
  simp only [readByte, writeByte, high_value, low_value]
  rw [Nat.div_add_mod, BitVec.ofNat_toNat, BitVec.setWidth_eq]

/-- A written byte is one token. -/
theorem tokens_writeByte (b : Byte) (cs : List Char) :
    tokens (writeByte b ++ cs) [] = tokens cs (writeByte b).reverse := by
  rw [tokens_word wordChar_of_mem_writeByte, List.append_nil]

/-- The token of a byte. -/
theorem flushWord_writeByte (b : Byte) (ts : List Token) :
    flushWord (writeByte b).reverse ts = .word (writeByte b) :: ts :=
  flushWord_reverse (List.cons_ne_nil _ _) ts

/-! ### Byte sequences -/

/-- The tokens of bytes up to the closing bracket. -/
def restTokens : Bytes → List Token
  | [] => [.closeBracket]
  | b :: S => .word (writeByte b) :: restTokens S

/-- The tokens of a byte sequence in brackets. -/
def bytesTokens (S : Bytes) : List Token := .openBracket :: restTokens S

/-- What `writeRest` writes has these tokens, after the word before it. -/
theorem tokens_writeRest (S : Bytes) {cs : List Char} (hcs : EndsLine cs) (acc : List Char) :
    tokens (writeRest S ++ cs) acc = flushWord acc (restTokens S) := by
  induction S generalizing acc with
  | nil =>
    change tokens (']' :: cs) acc = _
    rw [tokens_closeBracket, hcs, flushWord_nil]
    rfl
  | cons b S ih =>
    change tokens (' ' :: (writeByte b ++ writeRest S ++ cs)) acc = _
    rw [tokens_space, List.append_assoc, tokens_writeByte, ih, flushWord_writeByte]
    rfl

/-- What `writeBytes` writes has these tokens. -/
theorem tokens_writeBytes (S : Bytes) {cs : List Char} (hcs : EndsLine cs) :
    tokens (writeBytes S ++ cs) [] = bytesTokens S := by
  cases S with
  | nil =>
    change tokens ('[' :: ']' :: cs) [] = _
    rw [tokens_openBracket, tokens_closeBracket, hcs]
    rfl
  | cons b S =>
    change tokens ('[' :: (writeByte b ++ writeRest S ++ cs)) [] = _
    rw [tokens_openBracket, List.append_assoc, tokens_writeByte, tokens_writeRest S hcs, flushWord_writeByte]
    rfl

/-- Written bytes read back up to the closing bracket. -/
theorem readRest_restTokens (S : Bytes) : readRest (restTokens S) = some S := by
  induction S with
  | nil => rfl
  | cons b S ih => simp [restTokens, readRest, ih]

/-- A written byte sequence reads back (R71). -/
@[simp] theorem readBytes_bytesTokens (S : Bytes) : readBytes (bytesTokens S) = some S :=
  readRest_restTokens S

/-- The tokens of `op, [P]`. -/
theorem tokens_writeOpBytes (op : Byte) (P : Bytes) {cs : List Char} (hcs : EndsLine cs) :
    tokens (writeOpBytes op P ++ cs) [] = .word (writeByte op) :: .comma :: bytesTokens P := by
  rw [writeOpBytes, List.append_assoc, tokens_writeByte]
  change tokens (',' :: ' ' :: (writeBytes P ++ cs)) _ = _
  rw [tokens_comma, tokens_space, tokens_writeBytes P hcs, flushWord_writeByte, flushWord_nil]

/-- `op, [P]` reads back (R71). -/
@[simp] theorem readOpBytes_tokens (op : Byte) (P : Bytes) :
    readOpBytes (.word (writeByte op) :: .comma :: bytesTokens P) = some (op, P) := by
  simp [readOpBytes]

/-! ### Lines -/

/-- A mnemonic the tokens of a line begin with. -/
abbrev IsWord (m : String) : Prop := m.toList ≠ [] ∧ ∀ c ∈ m.toList, WordChar c

/-- The mnemonics of R71 and R72. -/
def mnemonics : List String :=
  ["FENC", "FDECB", "FDEC", "FRST", "FSTAT", "CSUM", "PBUILD", "PPARSE_CMD", "PPARSE_RSP.S2",
    "PPARSE_RSP.S4", "PPARSE_RSP", "SEND", "RECV.S2", "RECV.S4", "RECV"]

/-- Every mnemonic is a word. -/
theorem isWord_of_mem_mnemonics : ∀ m ∈ mnemonics, IsWord m := by
  simp [mnemonics, IsWord, WordChar]

/-- A line of a mnemonic alone. -/
theorem readLine_mnemonic {m : String} (hm : m ∈ mnemonics) {cs : List Char} (hcs : EndsLine cs) :
    readLine (m.toList ++ cs) = readOperands m [] := by
  obtain ⟨nonempty, chars⟩ := isWord_of_mem_mnemonics m hm
  simp only [readLine, tokens_word chars, List.append_nil, hcs m.toList.reverse,
    flushWord_reverse nonempty, String.ofList_toList]

/-- A line of a mnemonic and operands. -/
theorem readLine_writeWith {m : String} (hm : m ∈ mnemonics) (operands cs : List Char) :
    readLine (writeWith m operands ++ cs) = readOperands m (tokens (operands ++ cs) []) := by
  obtain ⟨nonempty, chars⟩ := isWord_of_mem_mnemonics m hm
  simp only [readLine, writeWith, List.append_assoc, List.cons_append, tokens_word chars,
    List.append_nil, tokens_space, flushWord_reverse nonempty, String.ofList_toList]

/-- A line whose operand is a byte sequence. -/
theorem readLine_writeBytes {m : String} (hm : m ∈ mnemonics) (S : Bytes) {cs : List Char}
    (hcs : EndsLine cs) :
    readLine (writeWith m (writeBytes S) ++ cs) = readOperands m (bytesTokens S) := by
  rw [readLine_writeWith hm, tokens_writeBytes S hcs]

/-- A line whose operands are an opcode and a payload. -/
theorem readLine_writeOpBytes {m : String} (hm : m ∈ mnemonics) (op : Byte) (P : Bytes)
    {cs : List Char} (hcs : EndsLine cs) :
    readLine (writeWith m (writeOpBytes op P) ++ cs) =
      readOperands m (.word (writeByte op) :: .comma :: bytesTokens P) := by
  rw [readLine_writeWith hm, tokens_writeOpBytes op P hcs]

/-- A line whose operand is a byte. -/
theorem readLine_writeByte {m : String} (hm : m ∈ mnemonics) (b : Byte) {cs : List Char}
    (hcs : EndsLine cs) :
    readLine (writeWith m (writeByte b) ++ cs) = readOperands m [.word (writeByte b)] := by
  rw [readLine_writeWith hm, tokens_writeByte, hcs, flushWord_writeByte]

/-- A written request reads back, whatever ends its line (R71). -/
theorem readLine_writeRequest (i : Instr) {cs : List Char} (hcs : EndsLine cs) :
    readLine (writeRequest i ++ cs) = some (.request i) := by
  cases i with
  | fenc F => exact (readLine_writeBytes (by decide) F hcs).trans (by simp [readOperands])
  | fdecb b => exact (readLine_writeByte (by decide) b hcs).trans (by simp [readOperands, readOneByte])
  | fdec S => exact (readLine_writeBytes (by decide) S hcs).trans (by simp [readOperands])
  | frst => exact (readLine_mnemonic (by decide) hcs).trans (by simp [readOperands, readNothing])
  | fstat => exact (readLine_mnemonic (by decide) hcs).trans (by simp [readOperands, readNothing])
  | csum P => exact (readLine_writeBytes (by decide) P hcs).trans (by simp [readOperands])
  | pbuild op P => exact (readLine_writeOpBytes (by decide) op P hcs).trans (by simp [readOperands])
  | pparseCmd K => exact (readLine_writeBytes (by decide) K hcs).trans (by simp [readOperands])
  | pparseRsp W K =>
    cases W with
    | s2 => exact (readLine_writeBytes (by decide) K hcs).trans (by simp [readOperands])
    | s4 => exact (readLine_writeBytes (by decide) K hcs).trans (by simp [readOperands])

/-- A written line reads back, whatever ends it (R71, R72). -/
theorem readLine_writeLine (l : AsmLine) {cs : List Char} (hcs : EndsLine cs) :
    readLine (writeLine l ++ cs) = some l := by
  cases l with
  | request i => exact readLine_writeRequest i hcs
  | send op P => exact (readLine_writeOpBytes (by decide) op P hcs).trans (by simp [readOperands])
  | recv W S =>
    cases W with
    | s2 => exact (readLine_writeBytes (by decide) S hcs).trans (by simp [readOperands])
    | s4 => exact (readLine_writeBytes (by decide) S hcs).trans (by simp [readOperands])

/-- `PPARSE_RSP` without a suffix means `W = 4` (R71). -/
theorem readLine_pparseRsp (K : Bytes) :
    readLine (writeWith "PPARSE_RSP" (writeBytes K)) = some (.request (.pparseRsp .s4 K)) := by
  have line := readLine_writeBytes (m := "PPARSE_RSP") (by decide) K endsLine_nil
  rw [List.append_nil] at line
  simp [line, readOperands]

/-- `RECV` without a suffix means `W = 4` (R72). -/
theorem readLine_recv (S : Bytes) :
    readLine (writeWith "RECV" (writeBytes S)) = some (.recv .s4 S) := by
  have line := readLine_writeBytes (m := "RECV") (by decide) S endsLine_nil
  rw [List.append_nil] at line
  simp [line, readOperands]

/-! ### The statement -/

/-- Settles O6: `readLine_writeLine` with nothing and with a comment after the line. -/
theorem syntaxReadsWhatItWrites : Obligations.SyntaxReadsWhatItWrites := by
  refine ⟨fun l => ?_, fun l cs => readLine_writeLine l (endsLine_comment cs), readLine_pparseRsp,
    readLine_recv⟩
  have line := readLine_writeLine l endsLine_nil
  rwa [List.append_nil] at line

end Sys2Proof.Proofs
end

section
/-! The proof of the statement about the pseudo-instructions SEND and RECV (30_encoding.md R72). -/

namespace Sys2Proof.Proofs

open Sys2Proof Sys2Proof.Machine

/-- The record of the last request performed is the one it returned. -/
@[simp] theorem afterRequest_lastResult (s : State) (i : Instr) :
    (afterRequest s i).lastResult = some (recordOf s.params s.dec i) := by
  simp [State.lastResult, afterRequest]

/-- An expansion goes on from what its request left, with the record it returned. -/
theorem performThen_eq {α : Type} (i : Instr) (s : State)
    (k : State → Option Result → Host.Outcome α Fault Refusal) :
    performThen i s k = k (afterRequest s i) (some (recordOf s.params s.dec i)) := by
  simp only [performThen, exec_eq_afterRequest, afterRequest_lastResult]

/-- The second request of an expansion is given the data of a record with code OK. -/
theorem okData_of_ok {r : Result} {K : Bytes} (hcode : r.code = .ok) (hdata : r.data = some K) :
    okData (some r) = some K := by
  rw [okData, if_pos hcode, hdata]

/-- There is no second request after a record with another code. -/
theorem okData_of_not_ok {r : Result} (hcode : r.code ≠ .ok) : okData (some r) = none :=
  if_neg hcode

/-- PBUILD's record with code OK has data (R142). -/
theorem buildCommand_data_of_ok {p : Params} {op : Byte} {P : Bytes}
    (hcode : (buildCommand p op P).code = .ok) : ∃ K, (buildCommand p op P).data = some K := by
  obtain ⟨-, h⟩ | ⟨-, h⟩ := buildCommand_cases p op P
  · simp [h] at hcode
  · exact ⟨_, by rw [h]⟩

/-- A decoder's record with code OK has data (R108, R110). -/
theorem decResult_data_of_ok {n : Nat} {o : DecOutcome} (hcode : (decResult n o).code = .ok) :
    ∃ F, (decResult n o).data = some F := by
  cases o with
  | delivered content => exact ⟨content, rfl⟩
  | _ => simp [decResult] at hcode

/-- SEND is PBUILD and, if that returned OK, FENC of its data (R72). -/
theorem runSend_expands (op : Byte) (P : Bytes) (s : State) :
    ∃ t r, exec (.pbuild op P) s = .next t ∧ t.results = s.results ++ [r] ∧
    if r.code = .ok then
      ∃ K u q, r.data = some K ∧ exec (.fenc K) t = .next u ∧ u.results = t.results ++ [q] ∧
        runSend op P s = .next (u, some q)
    else runSend op P s = .next (t, some r) := by
  refine ⟨_, _, exec_eq_afterRequest _ s, rfl, ?_⟩
  split
  next ok =>
    obtain ⟨K, data⟩ := buildCommand_data_of_ok ok
    refine ⟨K, _, _, data, exec_eq_afterRequest _ _, rfl, ?_⟩
    simp only [runSend, performThen_eq, okData_of_ok ok data]
  next not_ok => simp only [runSend, performThen_eq, okData_of_not_ok not_ok]

/-- RECV is FDEC and, if that returned OK, PPARSE_RSP of its data (R72). -/
theorem runRecv_expands (W : StatusWidth) (S : Bytes) (s : State) :
    ∃ t r, exec (.fdec S) s = .next t ∧ t.results = s.results ++ [r] ∧
    if r.code = .ok then
      ∃ F u q, r.data = some F ∧ exec (.pparseRsp W F) t = .next u ∧ u.results = t.results ++ [q] ∧
        runRecv W S s = .next (u, some { q with consumed := r.consumed })
    else runRecv W S s = .next (t, some r) := by
  refine ⟨_, _, exec_eq_afterRequest _ s, rfl, ?_⟩
  split
  next ok =>
    obtain ⟨F, data⟩ := decResult_data_of_ok ok
    refine ⟨F, _, _, data, exec_eq_afterRequest _ _, rfl, ?_⟩
    simp only [runRecv, performThen_eq, okData_of_ok ok data, Option.map_some, Option.bind_some]
  next not_ok => simp only [runRecv, performThen_eq, okData_of_not_ok not_ok]

/-- Settles O48: the two expansions, and how `RECV` alone is read. -/
theorem pseudoInstructionsExpandToRequests : Obligations.PseudoInstructionsExpandToRequests :=
  ⟨runSend_expands, runRecv_expands, readLine_recv⟩

end Sys2Proof.Proofs
end

section
/-! The proofs of the statements about single bytes and single records of the frame codec (40_frame_codec.md
R100 to R108, R112, R113): FENC's frame, one `DecStep` in each state, what a FramingError leaves, FSTAT. -/

namespace Sys2Proof.Proofs

open Sys2Proof Sys2Proof.Machine

/-! ### One `DecStep`, by state and byte

With `decStep_hunt_delim`, `decStep_inFrame_plain` and the two steps on escape codes, which stand with the
invariant of R27, these are the entries of R103 to R106. -/

/-- Outside frames every byte but `DELIM` is discarded (R103, R106). -/
theorem decStep_outside {p : Params} {d : Decoder} {b : Byte}
    (hd : d.rxState = .hunt ∨ d.rxState = .skip) (hb : b ≠ p.delim) : decStep p d b = (d, .incomplete) := by
  have no_delim := cls_ne_delim hb
  rcases hd with hd | hd
  · simp only [decStep, hd, decHunt]
    split
    next h => exact absurd h no_delim
    all_goals rfl
  · simp only [decStep, hd, decSkip]
    split
    next h => exact absurd h no_delim
    all_goals rfl

/-- `DELIM` in `IN_FRAME` delivers the buffer, and closes the frame unless it is empty (R104). -/
theorem decStep_inFrame_delim (p : Params) (B : Bytes) :
    decStep p ⟨.inFrame, B⟩ p.delim = (if B = [] then ⟨.inFrame, B⟩ else ⟨.hunt, []⟩, .delivered B) := by
  by_cases hB : B = [] <;> simp [decStep, decInFrame, hB]

/-- `ESC` in `IN_FRAME` begins an escape sequence, provided R3's (a) holds of it (R104). -/
theorem decStep_inFrame_esc_of_ne {p : Params} (B : Bytes) (h : p.esc ≠ p.delim) :
    decStep p ⟨.inFrame, B⟩ p.esc = (⟨.escape, B⟩, .incomplete) := by
  simp [decStep, decInFrame, cls, h]

/-- An escape code in `ESCAPE` appends the byte it stands for (R101, R105). -/
theorem decStep_escape_code {p : Params} (hv : p.Valid) {b : Byte} (B : Bytes)
    (hb : b = p.escDelimCode ∨ b = p.escEscCode) :
    decStep p ⟨.escape, B⟩ b =
      appendByte p ⟨.escape, B⟩ (if b = p.escDelimCode then p.delim else p.esc) := by
  split
  next hcd =>
    rw [hcd]
    exact decStep_escape_delimCode hv B
  next hcd =>
    rw [hb.resolve_left hcd]
    exact decStep_escape_escCode hv B

/-- `DELIM` in `ESCAPE` loses the frame and opens the next (R105). -/
theorem decStep_escape_delim (p : Params) (B : Bytes) :
    decStep p ⟨.escape, B⟩ p.delim = (⟨.inFrame, []⟩, .escapeAtEnd) := by
  simp [decStep, decEscape, unesc]

/-- A byte in `ESCAPE` that is neither an escape code nor `DELIM` is a bad escape (R105). -/
theorem decStep_escape_bad {p : Params} {b : Byte} (B : Bytes) (hd : b ≠ p.delim)
    (hcd : b ≠ p.escDelimCode) (hce : b ≠ p.escEscCode) :
    decStep p ⟨.escape, B⟩ b = (⟨.skip, []⟩, .badEscape) := by
  obtain ⟨-, h⟩ | ⟨hc, -⟩ | ⟨-, h, -⟩ | ⟨-, h, -⟩ | ⟨hc, -⟩ := cls_cases p b
  · exact absurd h hd
  · simp [decStep, decEscape, unesc, hc]
  · exact absurd h hcd
  · exact absurd h hce
  · simp [decStep, decEscape, unesc, hc]

/-- `DELIM` in `SKIP` ends the bad frame and opens the next (R106). -/
theorem decStep_skip_delim (p : Params) (B : Bytes) :
    decStep p ⟨.skip, B⟩ p.delim = (⟨.inFrame, B⟩, .incomplete) := by
  simp [decStep, decSkip]

/-- `Append` to a full buffer (R107). -/
theorem appendByte_of_full {p : Params} {d : Decoder} (v : Byte) (h : d.rxBuf.length = p.maxFrameLen) :
    appendByte p d v = (⟨.skip, []⟩, .oversize) :=
  if_pos h

/-- `Append` to a buffer that is not full (R107). -/
theorem appendByte_of_ne {p : Params} {d : Decoder} (v : Byte) (h : d.rxBuf.length ≠ p.maxFrameLen) :
    appendByte p d v = (⟨.inFrame, d.rxBuf ++ [v]⟩, .incomplete) :=
  if_neg h

/-- FDECB leaves what the `DecStep` of its byte leaves and returns its outcome's record (R108). -/
theorem exec_fdecb_of_decStep {p : Params} {d d' : Decoder} {b : Byte} {o : DecOutcome} {ins : List Input}
    {rs : List Result} (h : decStep p d b = (d', o)) :
    exec (.fdecb b) ⟨p, d, ins, rs⟩ = .next ⟨p, d', ins, rs ++ [decResult 1 o]⟩ := by
  rw [exec_eq, decAfter, recordOf, h]

/-! ### What a FramingError leaves -/

/-- The decoder that a FramingError leaves, by its code (R105, R107). -/
def decoderLeft : Code → Option Decoder
  | .ferrBadEscape => some ⟨.skip, []⟩
  | .ferrEscapeAtEnd => some ⟨.inFrame, []⟩
  | .ferrOversize => some ⟨.skip, []⟩
  | _ => none

/-- The codes of class FramingError are those for which R105 and R107 fix the decoder left, empty and in
`SKIP` or `IN_FRAME` (R200). -/
theorem decoderLeft_of_framingError {c : Code} (h : classOfValue c.value = some .framingError) :
    ∃ d, decoderLeft c = some d ∧ (d.rxState = .skip ∨ d.rxState = .inFrame) ∧ d.rxBuf = [] := by
  cases c with
  | ferrBadEscape => exact ⟨_, rfl, .inl rfl, rfl⟩
  | ferrEscapeAtEnd => exact ⟨_, rfl, .inr rfl, rfl⟩
  | ferrOversize => exact ⟨_, rfl, .inl rfl, rfl⟩
  | _ => exact absurd h (by decide)

/-- A `DecStep` that ends in a FramingError leaves the decoder its code tells. -/
theorem decStep_of_framingError {p : Params} {d e : Decoder} {b : Byte} {n : Nat}
    (h : decoderLeft (decResult n (decStep p d b).2).code = some e) : (decStep p d b).1 = e := by
  obtain ⟨hs, -⟩ | ⟨hs, -⟩ | ⟨hs, -⟩ | ⟨hs, -⟩ | ⟨hs, -⟩ | ⟨hs, -⟩ | ⟨v, hs, -⟩ | ⟨hs, -⟩ | ⟨hs, -⟩ :=
    decStep_cases p d b <;> rw [hs] at h ⊢
  · simp [decResult, decoderLeft] at h
  · simp [decResult, decoderLeft] at h
  · simp [decResult, decoderLeft] at h
  · simp [decResult, decoderLeft] at h
  · simp [decResult, decoderLeft] at h
  · simp [decResult, decoderLeft] at h
  · obtain ⟨-, ha⟩ | ⟨-, ha⟩ := appendByte_cases p d v <;> rw [ha] at h ⊢
    · exact Option.some.inj h
    · simp [decResult, decoderLeft] at h
  · exact Option.some.inj h
  · exact Option.some.inj h

/-- An outcome of FDEC's loop is that of the last `DecStep` it made, which left its decoder (R110). -/
theorem decRun_last_step {p : Params} {d : Decoder} {S : Bytes} (h : (decRun p d S).outcome ≠ .incomplete) :
    ∃ d' b, decStep p d' b = ((decRun p d S).dec, (decRun p d S).outcome) := by
  induction S generalizing d with
  | nil => simp at h
  | cons b S ih =>
    by_cases hb : (decStep p d b).2 = .incomplete
    · rw [decRun_cons_incomplete S hb] at h ⊢
      exact ih h
    · rw [decRun_cons_stop S hb]
      exact ⟨d, b, rfl⟩

/-- A request that returns a FramingError leaves the decoder its code tells: only FDECB and FDEC can. -/
theorem decAfter_of_framingError {p : Params} {d e : Decoder} {i : Instr}
    (h : decoderLeft (recordOf p d i).code = some e) : decAfter p d i = e := by
  cases i with
  | fdecb b => exact decStep_of_framingError h
  | fdec S =>
    have stopped : (decRun p d S).outcome ≠ .incomplete := by
      intro incomplete
      simp [recordOf, incomplete, decResult, decoderLeft] at h
    obtain ⟨d', b, last⟩ := decRun_last_step stopped
    have left := decStep_of_framingError (p := p) (d := d') (b := b) (e := e) (by rw [last]; exact h)
    rwa [last] at left
  | pbuild op P =>
    obtain ⟨-, hr⟩ | ⟨-, hr⟩ := buildCommand_cases p op P <;> simp [recordOf, hr, decoderLeft] at h
  | pparseCmd K =>
    obtain ⟨n, -, ⟨-, hr⟩ | ⟨-, -, hr⟩ | ⟨-, -, hr⟩ | ⟨-, -, hr⟩⟩ := parseCommand_cases p K <;>
      simp [recordOf, hr, decoderLeft] at h
  | pparseRsp W K =>
    obtain ⟨n, -, ⟨-, hr⟩ | ⟨-, -, hr⟩ | ⟨-, hr⟩⟩ := parseResponse_cases W K <;>
      simp [recordOf, hr, decoderLeft] at h
  | _ => simp [recordOf, decoderLeft] at h

/-! ### The encoding of `rx_state` -/

/-- R24's encoding gives 0 and 3 to `HUNT` and `SKIP`. -/
theorem rxState_of_code {x : RxState} (h : x.code = 0#2 ∨ x.code = 3#2) : x = .hunt ∨ x = .skip := by
  cases x with
  | hunt => exact .inl rfl
  | skip => exact .inr rfl
  | _ => exact absurd h (by decide)

/-! ### The statements -/

/-- Settles O20: the frame is `stuff`'s, read as `stuff_eq_flatMap` says, with the length of R68. -/
theorem fencReturnsTheStuffedFrame : Obligations.FencReturnsTheStuffedFrame := by
  refine ⟨fun s F => ?_, fun s => exec_eq (.fenc []) s, fun s F => ⟨_, exec_eq (.fenc F) s, ?_⟩,
    fun b F => decode_of_selects (.fenc b F)⟩
  · rw [exec_eq, recordOf, frame, stuff_eq_flatMap]
    rfl
  · simp only [frame, List.length_append, List.length_singleton, length_stuff]
    omega

/-- Settles O22: `DELIM` opens a frame, every other byte is outside one. -/
theorem fdecbInHunt : Obligations.FdecbInHunt := by
  rintro ⟨p, ⟨x, B⟩, ins, rs⟩ b (rfl : x = .hunt)
  refine exec_fdecb_of_decStep (o := .incomplete) ?_
  split
  next hb =>
    obtain rfl : b = p.delim := hb
    exact decStep_hunt_delim p B
  next hb => exact decStep_outside (.inl rfl) hb

/-- Settles O23: the order of R104's cases is that of the conditions. -/
theorem fdecbInFrame : Obligations.FdecbInFrame := by
  rintro ⟨p, ⟨x, B⟩, ins, rs⟩ b (rfl : x = .inFrame)
  split
  next hd =>
    obtain rfl : b = p.delim := hd
    exact exec_fdecb_of_decStep (decStep_inFrame_delim p B)
  next hd =>
  split
  next he =>
    obtain rfl : b = p.esc := he
    exact exec_fdecb_of_decStep (decStep_inFrame_esc_of_ne B hd)
  next he =>
  have plain := decStep_inFrame_plain B hd he
  split
  next full => exact exec_fdecb_of_decStep (plain.trans (appendByte_of_full b full))
  next room => exact exec_fdecb_of_decStep (plain.trans (appendByte_of_ne b room))

/-- Settles O24: R105's cases by the byte, and R107's by the buffer. -/
theorem fdecbInEscape : Obligations.FdecbInEscape := by
  rintro ⟨p, ⟨x, B⟩, ins, rs⟩ b hv (rfl : x = .escape)
  split
  next hcode =>
    have code_step := decStep_escape_code hv B hcode
    split
    next full => exact exec_fdecb_of_decStep (code_step.trans (appendByte_of_full _ full))
    next room => exact exec_fdecb_of_decStep (code_step.trans (appendByte_of_ne _ room))
  next hcode =>
  obtain ⟨hcd, hce⟩ := not_or.1 hcode
  split
  next hd =>
    obtain rfl : b = p.delim := hd
    exact exec_fdecb_of_decStep (decStep_escape_delim p B)
  next hd => exact exec_fdecb_of_decStep (decStep_escape_bad B hd hcd hce)

/-- Settles O25: R27 empties the buffer that `DELIM` hands on. -/
theorem fdecbInSkip : Obligations.FdecbInSkip := by
  rintro ⟨p, ⟨x, B⟩, ins, rs⟩ b ⟨empty, -⟩ (rfl : x = .skip)
  obtain rfl : B = [] := empty (.inr rfl)
  refine exec_fdecb_of_decStep (o := .incomplete) ?_
  split
  next hb =>
    obtain rfl : b = p.delim := hb
    exact decStep_skip_delim p []
  next hb => exact decStep_outside (.inr rfl) hb

/-- Settles O32: the class of the code fixes the decoder left, and `exec_eq` completes every request. -/
theorem framingErrorsAreNeverFatal : Obligations.FramingErrorsAreNeverFatal := by
  refine fun i s => ⟨_, _, exec_eq i s, rfl, fun framing => ?_, fun j => ⟨_, exec_eq j _⟩⟩
  obtain ⟨d, left, empty_state⟩ := decoderLeft_of_framingError framing
  rwa [decAfter_of_framingError left]

/-- Settles O33: the record is FSTAT's, and where `state` is 0 or 3 R27 empties the buffer. -/
theorem fstatReportsTheDecoder : Obligations.FstatReportsTheDecoder := by
  refine ⟨?_, fun s inv => ⟨_, _, exec_eq .fstat s, rfl, fun hstate => ?_⟩,
    fun b S => decode_of_selects (.fstat b S)⟩
  · rintro ⟨p, ⟨x, B⟩, ins, rs⟩
    cases x <;> exact exec_eq .fstat _
  · obtain ⟨empty, -⟩ := inv
    have outside : s.dec.rxState = .hunt ∨ s.dec.rxState = .skip :=
      rxState_of_code (by simpa [recordOf] using hstate)
    simp [recordOf, rxLen, empty outside]

end Sys2Proof.Proofs
end

section
/-! The proofs of the statements about streams of bytes (40_frame_codec.md R110, R111, R115, R117): what
FDECBs, one FDEC and a caller's FDECs make of a byte sequence, each tied to one function of the parameters,
the decoder and the bytes. -/

namespace Sys2Proof.Proofs

open Sys2Proof Sys2Proof.Machine

/-! ### Reports -/

/-- What a caller is told by one outcome: nothing by INCOMPLETE, else the code and the content. -/
def reportsOf : DecOutcome → List (Code × Option Bytes)
  | .incomplete => []
  | .delivered F => [(.ok, some F)]
  | .badEscape => [(.ferrBadEscape, none)]
  | .escapeAtEnd => [(.ferrEscapeAtEnd, none)]
  | .oversize => [(.ferrOversize, none)]

/-- `reportsOf` is what `reports` keeps of an outcome's record, whatever is consumed. -/
theorem reports_decResult (n : Nat) (o : DecOutcome) : reports [decResult n o] = reportsOf o := by
  cases o <;> rfl

/-- Reports come in the order of their records. -/
theorem reports_append (rs qs : List Result) : reports (rs ++ qs) = reports rs ++ reports qs := by
  simp [reports]

/-- The record of a request is reported after those before it. -/
theorem reports_cons (r : Result) (rs : List Result) : reports (r :: rs) = reports [r] ++ reports rs :=
  reports_append [r] rs

/-- A record with another code than INCOMPLETE is reported. -/
theorem reports_of_ne {r : Result} (h : r.code ≠ .incomplete) : reports [r] = [(r.code, r.data)] := by
  simp [reports, h]

/-- The code of an outcome's record is INCOMPLETE for that outcome alone (R108). -/
theorem decResult_code_eq_incomplete_iff {n : Nat} {o : DecOutcome} :
    (decResult n o).code = .incomplete ↔ o = .incomplete := by
  cases o <;> simp [decResult]

/-- An outcome's record always counts the bytes consumed (R62). -/
@[simp] theorem decResult_consumed (n : Nat) (o : DecOutcome) : (decResult n o).consumed = some n := by
  cases o <;> rfl

/-- An outcome's record has no other fields than code, data and consumed (R62). -/
theorem decResult_fields (n : Nat) (o : DecOutcome) :
    decResult n o = { code := (decResult n o).code, data := (decResult n o).data, consumed := some n } := by
  cases o <;> rfl

/-! ### A stream of bytes -/

/-- `DecStep` on each byte of a stream: the decoder left, and the reports made on the way. -/
def stream (p : Params) : Decoder → Bytes → Decoder × List (Code × Option Bytes)
  | d, [] => (d, [])
  | d, b :: S =>
    ((stream p (decStep p d b).1 S).1, reportsOf (decStep p d b).2 ++ (stream p (decStep p d b).1 S).2)

/-- No bytes change nothing and report nothing. -/
@[simp] theorem stream_nil (p : Params) (d : Decoder) : stream p d [] = (d, []) := rfl

/-- A stream of one byte is its `DecStep`. -/
theorem stream_singleton {p : Params} {d d' : Decoder} {b : Byte} {o : DecOutcome}
    (h : decStep p d b = (d', o)) : stream p d [b] = (d', reportsOf o) := by
  simp [stream, h]

/-- A stream goes on from what its first part left. -/
theorem stream_append (p : Params) (d : Decoder) (S T : Bytes) :
    stream p d (S ++ T) =
      ((stream p (stream p d S).1 T).1, (stream p d S).2 ++ (stream p (stream p d S).1 T).2) := by
  induction S generalizing d with
  | nil => rfl
  | cons b S ih => simp only [List.cons_append, stream, ih, List.append_assoc]

/-- `stream_append` for parts whose outcome is known. -/
theorem stream_trans {p : Params} {d d' d'' : Decoder} {S T : Bytes} {rs qs : List (Code × Option Bytes)}
    (hS : stream p d S = (d', rs)) (hT : stream p d' T = (d'', qs)) :
    stream p d (S ++ T) = (d'', rs ++ qs) := by
  rw [stream_append, hS, hT]

/-- The bytes FDEC consumes leave the decoder it leaves, and report its outcome (R110). -/
theorem stream_take_consumed (p : Params) (d : Decoder) (S : Bytes) :
    stream p d (S.take (decRun p d S).consumed) = ((decRun p d S).dec, reportsOf (decRun p d S).outcome) := by
  induction S generalizing d with
  | nil => rfl
  | cons b S ih =>
    by_cases hb : (decStep p d b).2 = .incomplete
    · rw [decRun_cons_incomplete S hb, List.take_succ_cons, stream, ih, hb]
      rfl
    · rw [decRun_cons_stop S hb, List.take_succ_cons, List.take_zero]
      exact stream_singleton rfl

/-- FDEC that ends with another outcome than INCOMPLETE consumed the byte that produced it, and the bytes
before that one report nothing (R110). -/
theorem stream_take_before_outcome {p : Params} {d : Decoder} {S : Bytes}
    (h : (decRun p d S).outcome ≠ .incomplete) :
    0 < (decRun p d S).consumed ∧ (stream p d (S.take ((decRun p d S).consumed - 1))).2 = [] := by
  induction S generalizing d with
  | nil => simp at h
  | cons b S ih =>
    by_cases hb : (decStep p d b).2 = .incomplete
    · rw [decRun_cons_incomplete S hb] at h ⊢
      obtain ⟨consumed_pos, silent⟩ := ih h
      obtain ⟨k, hk⟩ := Nat.exists_eq_succ_of_ne_zero consumed_pos.ne'
      simp only [hk, Nat.add_sub_cancel, Nat.succ_eq_add_one] at silent ⊢
      exact ⟨Nat.succ_pos _, by rw [List.take_succ_cons, stream, hb, silent]; rfl⟩
    · rw [decRun_cons_stop S hb]
      exact ⟨Nat.one_pos, rfl⟩

/-- What FDEC did with a sequence it consumed wholly, as a stream. -/
theorem stream_of_decRun {p : Params} {d d' : Decoder} {S : Bytes} {o : DecOutcome}
    (h : decRun p d S = ⟨d', o, S.length⟩) : stream p d S = (d', reportsOf o) := by
  have consumed := stream_take_consumed p d S
  rwa [h, List.take_length] at consumed

/-! ### Requests that feed a stream -/

/-- FDECB of each byte leaves and reports what the stream does (R108). -/
theorem feedBytewise_eq_stream (S : Bytes) (s : State) :
    ∃ rs, feedBytewise S s =
        .next { s with dec := (stream s.params s.dec S).1, results := s.results ++ rs } ∧
      reports rs = (stream s.params s.dec S).2 := by
  induction S generalizing s with
  | nil => exact ⟨[], by simp [feedBytewise, runInstrs], rfl⟩
  | cons b S ih =>
    obtain ⟨rs, others, reported⟩ := ih (afterRequest s (.fdecb b))
    refine ⟨recordOf s.params s.dec (.fdecb b) :: rs, ?_, ?_⟩
    · simp only [feedBytewise, List.map_cons, runInstrs, exec_eq_afterRequest] at others ⊢
      rw [others]
      simp only [afterRequest, List.append_assoc]
      rfl
    · rw [reports_cons, reported, recordOf, reports_decResult]
      rfl

/-- A caller that presents the unconsumed rest again, from what an FDEC left (R245). -/
theorem feedStream_succ (fuel : Nat) (S : Bytes) (s : State) :
    feedStream (fuel + 1) S s =
      if (decRun s.params s.dec S).consumed < S.length then
        feedStream fuel (S.drop (decRun s.params s.dec S).consumed) (afterRequest s (.fdec S))
      else .next (afterRequest s (.fdec S)) := by
  simp [feedStream, exec_eq_afterRequest, recordOf]

/-- FDECs with the unconsumed rest presented again leave and report what the stream does, in at most one
request more than there are bytes: each that stops early has consumed a byte (R115, R245). -/
theorem feedStream_eq_stream {fuel : Nat} {S : Bytes} (enough : S.length < fuel) (s : State) :
    ∃ rs, feedStream fuel S s =
        .next { s with dec := (stream s.params s.dec S).1, results := s.results ++ rs } ∧
      reports rs = (stream s.params s.dec S).2 := by
  induction fuel generalizing S s with
  | zero => exact absurd enough (Nat.not_lt_zero _)
  | succ fuel ih =>
    have first := stream_take_consumed s.params s.dec S
    rw [feedStream_succ]
    split
    next stopped =>
      have outcome_ne : (decRun s.params s.dec S).outcome ≠ .incomplete :=
        fun h => stopped.ne (decRun_consumed_of_incomplete h)
      obtain ⟨consumed_pos, -⟩ := stream_take_before_outcome outcome_ne
      obtain ⟨rs, others, reported⟩ := ih (S := S.drop (decRun s.params s.dec S).consumed)
        (by rw [List.length_drop]; omega) (afterRequest s (.fdec S))
      have whole := stream_trans first (T := S.drop (decRun s.params s.dec S).consumed) rfl
      rw [List.take_append_drop] at whole
      refine ⟨recordOf s.params s.dec (.fdec S) :: rs, ?_, ?_⟩
      · rw [others, whole]
        simp only [afterRequest, List.append_assoc]
        rfl
      · rw [reports_cons, reported, recordOf, reports_decResult, whole]
        rfl
    next all_consumed =>
      rw [List.take_of_length_le (Nat.le_of_not_lt all_consumed)] at first
      exact ⟨[recordOf s.params s.dec (.fdec S)], by rw [first]; rfl, by
        rw [recordOf, reports_decResult, first]⟩

/-! ### Bytes outside frames -/

/-- Bytes without `DELIM` are consumed and discarded outside frames (R117). -/
theorem decRun_outside {p : Params} {d : Decoder} (hd : d.rxState = .hunt ∨ d.rxState = .skip) {S : Bytes}
    (hS : p.delim ∉ S) : decRun p d S = ⟨d, .incomplete, S.length⟩ := by
  induction S with
  | nil => rfl
  | cons b S ih =>
    obtain ⟨hb, hS⟩ := not_or.1 (mt List.mem_cons.2 hS)
    have discarded := decStep_outside hd (Ne.symm hb)
    rw [decRun_cons_incomplete S (by rw [discarded]), discarded, ih hS, List.length_cons]

/-- `DELIM` outside frames opens one, with an empty buffer by R27 (R103, R106). -/
theorem decStep_outside_delim {p : Params} {d : Decoder} (hd : d.rxState = .hunt ∨ d.rxState = .skip)
    (empty : d.rxBuf = []) : decStep p d p.delim = (⟨.inFrame, []⟩, .incomplete) := by
  obtain ⟨x, B⟩ := d
  obtain rfl : B = [] := empty
  obtain rfl | rfl : x = .hunt ∨ x = .skip := hd
  · exact decStep_hunt_delim p []
  · exact decStep_skip_delim p []

/-! ### Requests after FRST -/

/-- What requests leave and return depends on the parameters and the decoder they find alone. -/
theorem foldl_afterRequest_eq (is : List Instr) (p : Params) (d : Decoder) :
    ∃ d' rs, rs.length = is.length ∧ ∀ (ins : List Input) (qs : List Result),
      is.foldl afterRequest ⟨p, d, ins, qs⟩ = ⟨p, d', ins, qs ++ rs⟩ := by
  induction is generalizing d with
  | nil => exact ⟨d, [], rfl, fun _ qs => by rw [List.append_nil]; rfl⟩
  | cons i is ih =>
    obtain ⟨d', rs, length_rs, others⟩ := ih (decAfter p d i)
    refine ⟨d', recordOf p d i :: rs, by rw [List.length_cons, length_rs, List.length_cons],
      fun ins qs => ?_⟩
    rw [List.foldl_cons, List.append_cons]
    exact others ins _

/-! ### The statements -/

/-- Settles O27: `stream` stands for the FDECBs, and `stream_take_consumed` ties it to FDEC's loop. -/
theorem fdecIsFdecbUpToTheFirstOutcome : Obligations.FdecIsFdecbUpToTheFirstOutcome := by
  refine ⟨fun s S => ?_, fun b S => decode_of_selects (.fdec b S)⟩
  obtain ⟨rs, fed, reported⟩ := feedBytewise_eq_stream (S.take (decRun s.params s.dec S).consumed) s
  rw [stream_take_consumed] at fed reported
  refine ⟨_, _, _, _, exec_eq (.fdec S) s, rfl, decResult_fields _ _, decRun_consumed_le _ _ _,
    fed, rfl, ?_, fun incomplete => ?_, fun stopped => ?_⟩
  · rw [List.drop_left, reported, recordOf, reports_decResult]
  · exact decRun_consumed_of_incomplete (decResult_code_eq_incomplete_iff.1 incomplete)
  · obtain ⟨consumed_pos, silent⟩ :=
      stream_take_before_outcome fun h => stopped (decResult_code_eq_incomplete_iff.2 h)
    obtain ⟨qs, fed_before, reported_before⟩ :=
      feedBytewise_eq_stream (S.take ((decRun s.params s.dec S).consumed - 1)) s
    exact ⟨consumed_pos, _, fed_before, by rw [List.drop_left, reported_before, silent]⟩

/-- Settles O28: both ways of feeding are `stream`, which splits after the bytes the first FDEC consumed. -/
theorem chunksAndBytesGiveTheSameOutcomes : Obligations.ChunksAndBytesGiveTheSameOutcomes := by
  intro s S₁ S₂
  have consumed_le := decRun_consumed_le s.params s.dec S₁
  have first := stream_take_consumed s.params s.dec S₁
  generalize hk : (decRun s.params s.dec S₁).consumed = k at consumed_le first
  obtain ⟨ws, fed_first, reported_first⟩ := feedBytewise_eq_stream (S₁.take k) s
  obtain ⟨vs, fed_all, reported_all⟩ := feedBytewise_eq_stream (S₁ ++ S₂) s
  obtain ⟨us, fed_rest, reported_rest⟩ :=
    feedStream_eq_stream (fuel := S₁.length + S₂.length + 1) (S := S₁.drop k ++ S₂)
      (by rw [List.length_append, List.length_drop]; omega) (afterRequest s (.fdec S₁))
  have whole := stream_trans first (T := S₁.drop k ++ S₂) rfl
  rw [← List.append_assoc, List.take_append_drop] at whole
  refine ⟨_, _, k, _, _, _, exec_eq_afterRequest (.fdec S₁) s, rfl, ?_, fun incomplete => ?_,
    fed_first, ?_, fun stopped => ?_, fed_rest, fed_all, ?_, ?_⟩
  · rw [recordOf, decResult_consumed, hk]
  · rw [← hk]
    exact decRun_consumed_of_incomplete (decResult_code_eq_incomplete_iff.1 incomplete)
  · rw [first]
    rfl
  · obtain ⟨consumed_pos, silent⟩ :=
      stream_take_before_outcome fun h => stopped (decResult_code_eq_incomplete_iff.2 h)
    rw [hk] at consumed_pos silent
    obtain ⟨xs, fed_before, reported_before⟩ := feedBytewise_eq_stream (S₁.take (k - 1)) s
    refine ⟨consumed_pos, _, fed_before, ?_, ?_⟩
    · rw [reports_append, reported_before, silent, List.append_nil]
    · rw [reports_append, reported_first, first, ← reports_of_ne stopped, recordOf, reports_decResult]
  · rw [whole]
    rfl
  · rw [reports_append, reports_append, reported_rest, reported_all, whole]
    simp only [afterRequest, reports_append, recordOf, reports_decResult, List.append_assoc]
    rfl

/-- Settles O31: `decRun_outside` for FDEC, and as a stream for FDECB; `DELIM` opens a frame. -/
theorem bytesOutsideFramesAreDiscarded : Obligations.BytesOutsideFramesAreDiscarded := by
  intro s inv outside
  have empty : s.dec.rxBuf = [] := inv.1 outside
  refine ⟨fun S hS => ?_, fun b => ⟨_, exec_eq (.fdecb b) s, ?_⟩⟩
  · have discarded := decRun_outside outside hS
    obtain ⟨rs, fed, reported⟩ := feedBytewise_eq_stream S s
    rw [stream_of_decRun discarded] at fed reported
    refine ⟨?_, _, fed, rfl, ?_⟩
    · rw [exec_eq, decAfter, recordOf, discarded]
      rfl
    · rw [reports_append, reported]
      exact List.append_nil _
  · by_cases hb : b = s.params.delim
    · refine ⟨?_, fun _ => hb⟩
      rw [decAfter, hb, decStep_outside_delim outside empty]
    · have discarded := decStep_outside outside hb
      rw [decAfter, discarded]
      exact ⟨empty, fun changed => absurd rfl changed⟩

/-- Settles O38: FRST leaves the reset decoder whatever it finds, and no request changes a parameter. -/
theorem frstForgetsWhatCameBefore : Obligations.FrstForgetsWhatCameBefore := by
  rintro ⟨p, d, ins, qs⟩ before after
  obtain ⟨d₁, rs₁, -, ran_before⟩ := foldl_afterRequest_eq before p d
  obtain ⟨d₂, rs₂, length_rs₂, ran_after⟩ := foldl_afterRequest_eq after p Decoder.reset
  have ran_frst (d : Decoder) (qs : List Result) :
      runInstrs (.frst :: after) ⟨p, d, ins, qs⟩ = .next ⟨p, d₂, ins, qs ++ { code := .ok } :: rs₂⟩ := by
    rw [runInstrs_eq_foldl, List.foldl_cons, List.append_cons]
    exact congrArg _ (ran_after ins _)
  refine ⟨_, _, _, (runInstrs_eq_foldl before _).trans (congrArg _ (ran_before ins qs)), ran_frst d qs,
    ran_frst d₁ _, rfl, _, ?_, rfl, rfl⟩
  rw [List.length_cons, length_rs₂]

end Sys2Proof.Proofs
end

section
/-! The proofs of the statements about whole frames (40_frame_codec.md R107, R114, R116): content of the
maximum length and one byte beyond it, the round trip, resynchronisation. -/

namespace Sys2Proof.Proofs

open Sys2Proof Sys2Proof.Machine

/-! ### Content that does not fit -/

/-- FDEC of one byte is its `DecStep` (R110). -/
theorem decRun_singleton {p : Params} {d d' : Decoder} {b : Byte} {o : DecOutcome}
    (h : decStep p d b = (d', o)) : decRun p d [b] = ⟨d', o, 1⟩ := by
  by_cases ho : o = .incomplete <;> simp [decRun, h, ho]

/-- An escape sequence in a full buffer raises FERR_OVERSIZE on its code (R105, R107). -/
theorem decRun_escapeSequence_full {p : Params} (hv : p.Valid) {B : Bytes} {code v : Byte}
    (hcode : decStep p ⟨.escape, B⟩ code = appendByte p ⟨.escape, B⟩ v) (full : B.length = p.maxFrameLen) :
    decRun p ⟨.inFrame, B⟩ [p.esc, code] = ⟨⟨.skip, []⟩, .oversize, 2⟩ := by
  have esc_step := decStep_inFrame_esc hv B
  have code_step := hcode.trans (appendByte_of_full v full)
  rw [decRun_cons_incomplete _ (by rw [esc_step]), esc_step, decRun_singleton code_step]

/-- The wire bytes of one content byte raise FERR_OVERSIZE when the buffer is full (R107). -/
theorem decRun_stuffByte_full {p : Params} (hv : p.Valid) {B : Bytes} (b : Byte)
    (full : B.length = p.maxFrameLen) :
    decRun p ⟨.inFrame, B⟩ (stuffByte p b) = ⟨⟨.skip, []⟩, .oversize, (stuffByte p b).length⟩ := by
  unfold stuffByte
  by_cases hd : b = p.delim
  · rw [if_pos hd]
    exact decRun_escapeSequence_full hv (decStep_escape_delimCode hv B) full
  by_cases he : b = p.esc
  · rw [if_neg hd, if_pos he]
    exact decRun_escapeSequence_full hv (decStep_escape_escCode hv B) full
  · rw [if_neg hd, if_neg he]
    exact decRun_singleton ((decStep_inFrame_plain B hd he).trans (appendByte_of_full b full))

/-- Stuffed content longer than the maximum raises FERR_OVERSIZE, whatever follows (R107, R114). -/
theorem decRun_stuff_oversize {p : Params} (hv : p.Valid) {F : Bytes} (long : p.maxFrameLen < F.length)
    (T : Bytes) : (decRun p ⟨.inFrame, []⟩ (stuff p F ++ T)).outcome = .oversize := by
  have split_at_max : F = F.take p.maxFrameLen ++ F[p.maxFrameLen] :: F.drop (p.maxFrameLen + 1) := by
    rw [← List.drop_eq_getElem_cons long, List.take_append_drop]
  have length_take : (F.take p.maxFrameLen).length = p.maxFrameLen := List.length_take_of_le long.le
  have fills := decRun_stuff hv (B := []) (F.take p.maxFrameLen) (by simp [length_take])
  have overflows := decRun_stuffByte_full hv (F[p.maxFrameLen]) length_take
  rw [split_at_max, stuff_append, stuff, List.append_assoc, List.append_assoc,
    decRun_append_of_incomplete _ (by rw [fills]), fills, List.nil_append,
    decRun_append_of_stop _ (by rw [overflows]; simp), overflows]

/-! ### Content that fits -/

/-- The state a frame of content `F` leaves when it is delivered: a closing `DELIM` after no content may
still open the next frame (R104). -/
def closedBy (F : Bytes) : Decoder := if F = [] then ⟨.inFrame, []⟩ else ⟨.hunt, []⟩

/-- A frame with content is closed in `HUNT`. -/
theorem closedBy_of_ne {F : Bytes} (h : F ≠ []) : closedBy F = ⟨.hunt, []⟩ :=
  if_neg h

/-- Stuffed content that fits and a `DELIM` after it deliver the content (R104, R107). -/
theorem decRun_closeFrame {p : Params} (hv : p.Valid) {F : Bytes} (fits : F.length ≤ p.maxFrameLen) :
    decRun p ⟨.inFrame, []⟩ (stuff p F ++ [p.delim]) =
      ⟨closedBy F, .delivered F, (stuff p F ++ [p.delim]).length⟩ := by
  have content := decRun_stuff hv (B := []) F (by simpa using fits)
  have close : decStep p ⟨.inFrame, F⟩ p.delim = (closedBy F, .delivered F) := by
    rw [decStep_inFrame_delim]
    by_cases hF : F = [] <;> simp [closedBy, hF]
  rw [decRun_append_of_incomplete _ (by rw [content]), content, List.nil_append, decRun_singleton close,
    List.length_append, List.length_singleton]

/-- FDEC's loop on a frame from `HUNT` first opens it (R103). -/
theorem decRun_frame (p : Params) (B F : Bytes) :
    decRun p ⟨.hunt, B⟩ (frame p F) =
      ⟨(decRun p ⟨.inFrame, []⟩ (stuff p F ++ [p.delim])).dec,
        (decRun p ⟨.inFrame, []⟩ (stuff p F ++ [p.delim])).outcome,
        (decRun p ⟨.inFrame, []⟩ (stuff p F ++ [p.delim])).consumed + 1⟩ := by
  have opened := decStep_hunt_delim p B
  rw [frame, List.append_assoc, List.singleton_append, decRun_cons_incomplete _ (by rw [opened]), opened]

/-! ### Resynchronisation -/

/-- A frame delivers its content once its first `DELIM` has left `IN_FRAME` with an empty buffer, after
whatever that `DELIM` reports (R116). -/
theorem stream_frame {p : Params} (hv : p.Valid) {d : Decoder} {F : Bytes} {o : DecOutcome}
    (hF : F ≠ []) (fits : F.length ≤ p.maxFrameLen) (opened : decStep p d p.delim = (⟨.inFrame, []⟩, o)) :
    stream p d (frame p F) = (⟨.hunt, []⟩, reportsOf o ++ [(.ok, some F)]) := by
  have closed := stream_of_decRun (decRun_closeFrame hv fits)
  rw [closedBy_of_ne hF] at closed
  rw [frame, List.append_assoc]
  exact stream_trans (stream_singleton opened) closed

/-- A frame that meets a stale partial frame: its first `DELIM` delivers that one, its content is discarded
in `HUNT`, and its last `DELIM` opens the next frame (R116). -/
theorem stream_frame_stale {p : Params} (hv : p.Valid) {B : Bytes} (hB : B ≠ []) (F : Bytes) :
    stream p ⟨.inFrame, B⟩ (frame p F) = (⟨.inFrame, []⟩, [(.ok, some B)]) := by
  have delivered := stream_singleton (decStep_inFrame_delim p B)
  rw [if_neg hB] at delivered
  have discarded := stream_of_decRun (decRun_outside (d := ⟨.hunt, []⟩) (.inl rfl) (delim_notMem_stuff hv F))
  exact stream_trans (stream_trans delivered discarded) (stream_singleton (decStep_hunt_delim p []))

/-- Feeding bytes whose stream is known: the decoder left, the parameters kept, the reports added. -/
theorem feedBytewise_of_stream {s : State} {S : Bytes} {d : Decoder} {rs : List (Code × Option Bytes)}
    (h : stream s.params s.dec S = (d, rs)) :
    ∃ t, feedBytewise S s = .next t ∧ t.dec = d ∧ reports t.results = reports s.results ++ rs ∧
      t.params = s.params := by
  obtain ⟨qs, fed, reported⟩ := feedBytewise_eq_stream S s
  rw [h] at fed reported
  exact ⟨_, fed, rfl, by rw [reports_append, reported], rfl⟩

/-- Feeding a frame whose first `DELIM` opens it, `stream_frame` at the level of requests. -/
theorem feedBytewise_frame {s : State} {F : Bytes} {o : DecOutcome} (hv : s.params.Valid)
    (hF : F ≠ []) (fits : F.length ≤ s.params.maxFrameLen)
    (opened : decStep s.params s.dec s.params.delim = (⟨.inFrame, []⟩, o)) :
    ∃ t, feedBytewise (frame s.params F) s = .next t ∧ t.dec = ⟨.hunt, []⟩ ∧
      reports t.results = reports s.results ++ (reportsOf o ++ [(.ok, some F)]) := by
  obtain ⟨t, fed, dec_t, reported, -⟩ := feedBytewise_of_stream (stream_frame hv hF fits opened)
  exact ⟨t, fed, dec_t, reported⟩

/-! ### The statements -/

/-- Settles O29: `decRun_closeFrame` after the opening `DELIM`, or `decRun_stuff_oversize`. -/
theorem frameRoundTrip : Obligations.FrameRoundTrip := by
  rintro ⟨p, ⟨x, B⟩, ins, rs⟩ F hv (rfl : x = .hunt)
  refine ⟨_, exec_eq (.fenc F) _, fun fits => ?_, fun long => ⟨_, _, exec_eq (.fdec _) _, rfl, ?_⟩⟩
  · rw [exec_eq, decAfter, recordOf, decRun_frame, decRun_closeFrame hv fits]
    simp [decResult, closedBy, frame]
  · simp only [recordOf, decRun_frame, decRun_stuff_oversize hv long]
    rfl

/-- Settles O30: in each state the frame's first `DELIM` decides, by R103 to R106, whether it opens the
frame; only after a stale partial frame it does not. -/
theorem resynchronisationAfterAnyState : Obligations.ResynchronisationAfterAnyState := by
  rintro ⟨p, ⟨x, B⟩, ins, rs⟩ F G ⟨hv, ⟨empty, -⟩⟩ hF fitsF hG fitsG
  have empty_opens := decStep_inFrame_delim p []
  refine ⟨fun outside => ?_, ?_, ?_, ?_, ?_⟩
  · exact feedBytewise_frame hv hF fitsF (decStep_outside_delim outside (empty outside))
  · rintro (rfl : x = .inFrame) (rfl : B = [])
    exact feedBytewise_frame hv hF fitsF empty_opens
  · rintro (rfl : x = .escape)
    exact feedBytewise_frame hv hF fitsF (decStep_escape_delim p B)
  · rintro (rfl : x = .inFrame) hB
    obtain ⟨⟨q, d, ins', rs'⟩, fed, (rfl : d = _), reported, (rfl : q = p)⟩ :=
      feedBytewise_of_stream (s := ⟨p, ⟨.inFrame, B⟩, ins, rs⟩) (stream_frame_stale hv hB F)
    obtain ⟨u, fed_next, dec_u, reported_next⟩ :=
      feedBytewise_frame (s := ⟨q, ⟨.inFrame, []⟩, ins', rs'⟩) hv hG fitsG empty_opens
    exact ⟨_, u, fed, rfl, reported, fed_next, dec_u, reported_next⟩
  · obtain ⟨u, fed, dec_u, reported⟩ :=
      feedBytewise_frame (s := afterRequest ⟨p, ⟨x, B⟩, ins, rs⟩ .frst) hv hF fitsF (decStep_hunt_delim p [])
    exact ⟨_, u, exec_eq .frst _, fed, dec_u, reported⟩

/-- Settles O26: one content byte in a buffer that is full or has room; `decRun_closeFrame` for content of
the maximum length, which R3 (d) makes non-empty. -/
theorem oversizeIsRaisedOnTheByteBeyondTheMaximum :
    Obligations.OversizeIsRaisedOnTheByteBeyondTheMaximum := by
  rintro ⟨p, ⟨x, B⟩, ins, rs⟩ v hv (rfl : x = .inFrame) -
  have one_byte : stuff p [v] = stuffByte p v := List.append_nil _
  refine ⟨⟨_, _, exec_eq (.fdec _) _, rfl, fun full => ?_, fun room => ?_⟩, ?_⟩
  · simp [decAfter, recordOf, one_byte, decRun_stuffByte_full hv v full, decResult]
  · simp [decAfter, recordOf, one_byte, decRun_stuffByte hv v room, decResult]
  · rintro F (rfl : B = []) length_F
    have ⟨_, _, _, room⟩ := hv
    have nonempty : F ≠ [] := by
      rintro rfl
      exact room length_F.symm
    refine ⟨_, exec_eq (.fdec _) _, ?_, ?_⟩
    · simp only [decAfter, decRun_closeFrame hv length_F.le, closedBy_of_ne nonempty]
    · simp only [recordOf, decRun_closeFrame hv length_F.le, List.length_append, List.length_singleton]
      rfl

end Sys2Proof.Proofs
end

section
/-! The proofs of the statements about the checksum and its laws (41_packet_codec.md R140, R145), and what
each packet operation returns as a function of the parameters. -/

namespace Sys2Proof.Proofs

open Sys2Proof Sys2Proof.Machine

/-! ### The packet operations only return a record -/

/-- CSUM returns the checksum and changes nothing (R28, R140). -/
theorem exec_csum (P : Bytes) (s : State) :
    exec (.csum P) s = .next { s with
      results := s.results ++ [{ code := .ok, csum := some (csumOf s.params P) }] } :=
  exec_eq (.csum P) s

/-- PBUILD returns what it built and changes nothing (R28, R142). -/
theorem exec_pbuild (op : Byte) (P : Bytes) (s : State) :
    exec (.pbuild op P) s =
      .next { s with results := s.results ++ [buildCommand s.params op P] } :=
  exec_eq (.pbuild op P) s

/-- PPARSE_CMD returns what it parsed and changes nothing (R28, R143). -/
theorem exec_pparseCmd (K : Bytes) (s : State) :
    exec (.pparseCmd K) s = .next { s with results := s.results ++ [parseCommand s.params K] } :=
  exec_eq (.pparseCmd K) s

/-- PPARSE_RSP returns what it parsed and changes nothing (R28, R144). -/
theorem exec_pparseRsp (W : StatusWidth) (K : Bytes) (s : State) :
    exec (.pparseRsp W K) s = .next { s with results := s.results ++ [parseResponse W K] } :=
  exec_eq (.pparseRsp W K) s

/-! ### The laws of the fold -/

/-- A difference in the start value is the difference of the results (R145). -/
theorem xorFold_xor_start (c d : Byte) (P : Bytes) : xorFold (c ^^^ d) P = xorFold c P ^^^ d := by
  rw [xorFold_start, xorFold_start c, BitVec.xor_assoc, BitVec.xor_comm d, ← BitVec.xor_assoc]

/-- The checksum is the fold of the payload into the seed (R140). -/
theorem csumOf_eq_foldl (p : Params) (P : Bytes) :
    csumOf p P = P.foldl (fun c b => c ^^^ b) p.checksumSeed :=
  xorFold_eq_foldl _ P

/-- The checksum goes through concatenation (R145). -/
theorem csumOf_append (p : Params) (P Q : Bytes) : csumOf p (P ++ Q) = csumOf p P ^^^ xorFold 0 Q := by
  rw [csumOf, xorFold_append, xorFold_start]
  rfl

/-- The checksum is the seed and the exclusive or of the payload (R145). -/
theorem csumOf_eq_seed_xor (p : Params) (P : Bytes) : csumOf p P = p.checksumSeed ^^^ xorFold 0 P :=
  xorFold_start _ P

/-- The order of the payload's bytes does not matter to the checksum (R145). -/
theorem csumOf_perm (p : Params) {P Q : Bytes} (h : P.Perm Q) : csumOf p P = csumOf p Q := by
  rw [csumOf_eq_foldl, csumOf_eq_foldl, h.foldl_eq]

/-- A byte of the payload comes out of the checksum, wherever it stands (R145). -/
theorem csumOf_insert (p : Params) (b : Byte) (A B : Bytes) :
    csumOf p (A ++ [b] ++ B) = csumOf p (A ++ B) ^^^ b := by
  have one_byte : xorFold 0 [b] = b := BitVec.zero_xor
  rw [csumOf_append, csumOf_append, csumOf_append, one_byte, BitVec.xor_assoc, BitVec.xor_assoc,
    BitVec.xor_comm b]

/-- Two equal bytes anywhere in a payload cancel (R145). -/
theorem csumOf_cancel (p : Params) (b : Byte) (A B C : Bytes) :
    csumOf p (A ++ [b] ++ B ++ [b] ++ C) = csumOf p (A ++ B ++ C) := by
  rw [csumOf_insert, List.append_assoc (A ++ [b]), csumOf_insert, BitVec.xor_assoc, BitVec.xor_self,
    BitVec.xor_zero, List.append_assoc]

/-- Two checksums differ by what their payloads differ, whatever the seed (R145). -/
theorem csumOf_xor_csumOf (p : Params) (P Q : Bytes) :
    csumOf p P ^^^ csumOf p Q = xorFold 0 P ^^^ xorFold 0 Q :=
  calc csumOf p P ^^^ csumOf p Q
    _ = (p.checksumSeed ^^^ xorFold 0 P) ^^^ (p.checksumSeed ^^^ xorFold 0 Q) := by
      rw [csumOf_eq_seed_xor, csumOf_eq_seed_xor]
    _ = (p.checksumSeed ^^^ p.checksumSeed) ^^^ (xorFold 0 P ^^^ xorFold 0 Q) := by ac_rfl
    _ = xorFold 0 P ^^^ xorFold 0 Q := by rw [BitVec.xor_self, BitVec.zero_xor]

/-! ### The statements -/

/-- Settles O39: the model's loop is the fold. -/
theorem csumIsTheXorFold : Obligations.CsumIsTheXorFold :=
  ⟨fun s P => by rw [exec_csum, csumOf_eq_foldl], exec_csum [], fun b P => decode_of_selects (.csum b P)⟩

/-- Settles O40: one lemma per law. -/
theorem csumXorLaws : Obligations.CsumXorLaws := fun p P Q =>
  ⟨csumOf_eq_seed_xor p P, rfl, csumOf_append p P Q, csumOf_perm p, csumOf_cancel p,
    csumOf_xor_csumOf p P Q⟩

end Sys2Proof.Proofs
end

section
/-! The proofs of the statements about the two packet layouts (41_packet_codec.md R141 to R147, R151): the
fields of a packet, what the parsers check, what they return of a packet that was built. -/

namespace Sys2Proof.Proofs

open Sys2Proof Sys2Proof.Machine

/-! ### Fields -/

/-- Bits written one after the other as a number. -/
theorem toNat_append_eq_add {v w : Nat} (x : BitVec v) (y : BitVec w) :
    (x ++ y).toNat = 2 ^ w * x.toNat + y.toNat := by
  rw [BitVec.toNat_append, ← Nat.shiftLeft_add_eq_or_of_lt y.isLt, Nat.shiftLeft_eq, Nat.mul_comm]

/-- A 32-bit field as a number, its first byte the lowest (R5, R70). -/
theorem le32_toNat (s : Bytes) (i : Nat) :
    (le32 s i).toNat = (byteAt s i).toNat + 2 ^ 8 * (byteAt s (i + 1)).toNat +
      2 ^ 16 * (byteAt s (i + 2)).toNat + 2 ^ 24 * (byteAt s (i + 3)).toNat := by
  simp only [le32_eq_append, toNat_append_eq_add]
  omega

/-- The length field reads back (R5). -/
theorem le16_bytesLe16 (b : Byte) (v : Half) (R : Bytes) : le16 (b :: (bytesLe16 v ++ R)) 1 = v := by
  apply BitVec.eq_of_toNat_eq
  have bound := v.isLt
  rw [le16_toNat]
  simp [bytesLe16, byteAt, Nat.shiftRight_eq_div_pow]
  omega

/-- The checksum field reads back, wherever it stands (R5). -/
theorem le32_bytesLe32 (A : Bytes) (v : Word32) : le32 (A ++ bytesLe32 v) A.length = v := by
  apply BitVec.eq_of_toNat_eq
  have bound := v.isLt
  rw [le32_toNat]
  simp [bytesLe32, byteAt, Nat.shiftRight_eq_div_pow]
  omega

/-- Widening a byte to the checksum field loses nothing. -/
theorem zext_inj {c d : Byte} : zext 32 c = zext 32 d ↔ c = d := by
  refine ⟨fun h => ?_, congrArg _⟩
  have low_byte := congrArg (BitVec.setWidth 8) h
  simpa [zext] using low_byte

/-! ### What the parsers answer, in the terms of R143 and R144 -/

/-- PPARSE_CMD accepts or refuses by the numbers in the packet (R143). -/
theorem parseCommand_eq (p : Params) (K : Bytes) (n crx : Nat) (c : Byte)
    (hn : (le16 K 1).toNat = n) (hcrx : (le32 K (3 + n)).toNat = crx)
    (hc : csumOf p (slice K 3 (3 + n)) = c) :
    parseCommand p K =
      if K.length < 3 then { code := .malShort }
      else if K.length ≠ 7 + n then { code := .malLength, length := some n }
      else if crx ≠ c.toNat then
        { code := .malChecksum, checksum := some (BitVec.ofNat 32 crx), csum := some c }
      else { code := .ok, opcode := some (byteAt K 0), payload := some (slice K 3 (3 + n)),
             checksum := some (BitVec.ofNat 32 crx) } := by
  subst hn hcrx hc
  have same_sum : ∀ (w : Word32) (c : Byte), w.toNat ≠ c.toNat ↔ w ≠ zext 32 c := by
    intro w c
    rw [Ne, Ne, ← BitVec.toNat_inj, zext, BitVec.toNat_setWidth, Nat.mod_eq_of_lt (by omega)]
  simp only [parseCommand, same_sum, BitVec.ofNat_toNat, BitVec.setWidth_eq]

/-- PPARSE_RSP accepts exactly the length its width needs (R144, R151). -/
theorem parseResponse_ok_iff (W : StatusWidth) (K : Bytes) :
    (parseResponse W K).code = .ok ↔ K.length = 3 + statusBytes W + (le16 K 1).toNat := by
  obtain ⟨n, rfl, ⟨short, hr⟩ | ⟨-, wrong, hr⟩ | ⟨right, hr⟩⟩ := parseResponse_cases W K
  · simp [hr]
    omega
  · simp [hr, wrong]
  · simp [hr, right]

/-! ### Packets -/

/-- What the two packet layouts share: an opcode, the declared length in two bytes, and the rest
(R66, R67). -/
def packet (op : Byte) (n : Nat) (R : Bytes) : Bytes := op :: (bytesLe16 (BitVec.ofNat 16 n) ++ R)

/-- A command packet's rest is the payload and the checksum field (R66). -/
theorem commandPacket_eq_packet (p : Params) (op : Byte) (P : Bytes) :
    commandPacket p op P = packet op P.length (P ++ bytesLe32 (zext 32 (csumOf p P))) := by
  simp [commandPacket, packet]

/-- A response packet's rest is the status and the payload (R67). -/
theorem responsePacket_eq_packet (op : Byte) (st P : Bytes) :
    responsePacket op st P = packet op P.length (st ++ P) := by
  simp [responsePacket, packet]

/-- Three bytes stand before the rest. -/
@[simp] theorem length_packet (op : Byte) (n : Nat) (R : Bytes) :
    (packet op n R).length = 3 + R.length := by
  simp [packet, bytesLe16]
  omega

/-- The opcode is the first byte. -/
@[simp] theorem byteAt_packet_zero (op : Byte) (n : Nat) (R : Bytes) : byteAt (packet op n R) 0 = op := rfl

/-- The declared length is read back when 16 bits hold it. -/
theorem le16_packet {n : Nat} (h : n ≤ 65535) (op : Byte) (R : Bytes) :
    (le16 (packet op n R) 1).toNat = n := by
  rw [packet, le16_bytesLe16, BitVec.toNat_ofNat, Nat.mod_eq_of_lt (by omega)]

/-- The first three bytes fall away. -/
theorem drop_packet (op : Byte) (n : Nat) (R : Bytes) (i : Nat) :
    (packet op n R).drop (3 + i) = R.drop i := by
  rw [Nat.add_comm]
  rfl

/-- A byte of the rest. -/
theorem byteAt_packet (op : Byte) (n : Nat) (R : Bytes) (i : Nat) :
    byteAt (packet op n R) (3 + i) = byteAt R i := by
  rw [Nat.add_comm]
  rfl

/-- A 32-bit field of the rest. -/
theorem le32_packet (op : Byte) (n : Nat) (R : Bytes) (i : Nat) :
    le32 (packet op n R) (3 + i) = le32 R i := by
  simp only [le32, Nat.add_assoc, byteAt_packet]

/-- A slice of the rest. -/
theorem slice_packet (op : Byte) (n : Nat) (R : Bytes) (i j : Nat) :
    slice (packet op n R) (3 + i) (3 + i + j) = (R.drop i).take j := by
  rw [slice, drop_packet, Nat.add_sub_cancel_left]

/-- A byte of the rest written. -/
theorem set_packet (op : Byte) (n : Nat) (R : Bytes) (i : Nat) (b : Byte) :
    (packet op n R).set (3 + i) b = packet op n (R.set i b) := by
  rw [Nat.add_comm]
  rfl

/-- PPARSE_CMD of a packet whose declared length is its payload's looks at the checksum only (R143). -/
theorem parseCommand_packet {P : Bytes} (h : P.length ≤ 65535) (p : Params) (op : Byte) (w : Word32) :
    parseCommand p (packet op P.length (P ++ bytesLe32 w)) =
      if w = zext 32 (csumOf p P) then
        { code := .ok, opcode := some op, payload := some P, checksum := some w }
      else { code := .malChecksum, checksum := some w, csum := some (csumOf p P) } := by
  have declared := le16_packet h op (P ++ bytesLe32 w)
  have payload : slice (packet op P.length (P ++ bytesLe32 w)) 3 (3 + P.length) = P := by
    simpa using slice_packet op P.length (P ++ bytesLe32 w) 0 P.length
  have field : le32 (packet op P.length (P ++ bytesLe32 w)) (3 + P.length) = w := by
    rw [le32_packet, le32_bytesLe32]
  have total : (packet op P.length (P ++ bytesLe32 w)).length = 7 + P.length := by
    simp [bytesLe32]
    omega
  obtain ⟨n, hn, hcases⟩ := parseCommand_cases p (packet op P.length (P ++ bytesLe32 w))
  obtain rfl : n = P.length := hn.trans declared
  rw [payload, field, byteAt_packet_zero] at hcases
  obtain ⟨short, -⟩ | ⟨-, wrong_length, -⟩ | ⟨-, wrong_sum, hr⟩ | ⟨-, right_sum, hr⟩ := hcases
  · omega
  · exact absurd total wrong_length
  · rw [hr, if_neg wrong_sum]
  · rw [hr, if_pos right_sum]

/-- PPARSE_CMD of a command packet gives back what it was made from (R147). -/
theorem parseCommand_commandPacket {P : Bytes} (h : P.length ≤ 65535) (p : Params) (op : Byte) :
    parseCommand p (commandPacket p op P) =
      { code := .ok, opcode := some op, payload := some P, checksum := some (zext 32 (csumOf p P)) } := by
  rw [commandPacket_eq_packet, parseCommand_packet h, if_pos rfl]

/-- PPARSE_RSP of a response packet of its width gives back what it was made from (R144). -/
theorem parseResponse_responsePacket {W : StatusWidth} {st P : Bytes} (hst : st.length = statusBytes W)
    (h : P.length ≤ 65535) (op : Byte) :
    parseResponse W (responsePacket op st P) =
      { code := .ok, opcode := some op, status := some st, payload := some P } := by
  have declared := le16_packet h op (st ++ P)
  have status := slice_packet op P.length (st ++ P) 0 st.length
  have payload := slice_packet op P.length (st ++ P) st.length P.length
  have total : (packet op P.length (st ++ P)).length = 3 + st.length + P.length := by
    simp [Nat.add_assoc]
  obtain ⟨n, hn, hcases⟩ := parseResponse_cases W (packet op P.length (st ++ P))
  obtain rfl : n = P.length := hn.trans declared
  rw [responsePacket_eq_packet]
  rw [← hst] at hcases
  obtain ⟨short, -⟩ | ⟨-, wrong_length, -⟩ | ⟨-, hr⟩ := hcases
  · omega
  · exact absurd total wrong_length
  · rw [hr, payload]
    simpa using status

/-- PBUILD of a payload that fits the length field (R142). -/
theorem exec_pbuild_of_le {P : Bytes} (h : P.length ≤ 65535) (op : Byte) (s : State) :
    exec (.pbuild op P) s = .next { s with
      results := s.results ++ [{ code := .ok, data := some (commandPacket s.params op P) }] } := by
  rw [exec_pbuild, buildCommand, if_neg (by omega)]

/-! ### One changed byte -/

/-- One byte of a payload changed changes the fold by the same difference (R146). -/
theorem xorFold_set {P : Bytes} {i : Nat} (h : i < P.length) (c d : Byte) :
    xorFold c (P.set i (P.getD i 0 ^^^ d)) = xorFold c P ^^^ d := by
  induction P generalizing c i with
  | nil => simp at h
  | cons b P ih =>
    cases i with
    | zero =>
      show xorFold (c ^^^ (b ^^^ d)) P = xorFold (c ^^^ b) P ^^^ d
      rw [← BitVec.xor_assoc, xorFold_xor_start]
    | succ i => exact ih (Nat.lt_of_succ_lt_succ h) (c ^^^ b)

/-- A byte changed by a non-zero difference is another byte. -/
theorem xor_ne_self {d : Byte} (hd : d ≠ 0) (c : Byte) : c ^^^ d ≠ c := by
  intro same
  apply hd
  calc d = c ^^^ (c ^^^ d) := by rw [← BitVec.xor_assoc, BitVec.xor_self, BitVec.zero_xor]
    _ = 0 := by rw [same, BitVec.xor_self]; rfl

/-- A packet whose payload was changed in one byte is answered MAL_CHECKSUM (R146). -/
theorem parseCommand_set_payload {P : Bytes} (h : P.length ≤ 65535) {i : Nat} (hi : i < P.length)
    {d : Byte} (hd : d ≠ 0) (p : Params) (op : Byte) :
    (parseCommand p ((commandPacket p op P).set (3 + i) (P.getD i 0 ^^^ d))).code = .malChecksum := by
  have same_length : (P.set i (P.getD i 0 ^^^ d)).length = P.length := List.length_set
  have changed : zext 32 (csumOf p P) ≠ zext 32 (csumOf p (P.set i (P.getD i 0 ^^^ d))) := by
    rw [Ne, zext_inj, csumOf, csumOf, xorFold_set hi]
    exact (xor_ne_self hd _).symm
  rw [commandPacket_eq_packet, set_packet, List.set_append_left _ _ hi, ← same_length,
    parseCommand_packet (same_length.trans_le h), if_neg changed]

/-- A packet whose payload was exchanged for one of the same length and exclusive or is accepted
(R146). -/
theorem parseCommand_exchange_payload {P Q : Bytes} (h : P.length ≤ 65535) (hlen : Q.length = P.length)
    (hxor : xorFold 0 Q = xorFold 0 P) (p : Params) (op : Byte) :
    parseCommand p ((commandPacket p op P).take 3 ++ Q ++ (commandPacket p op P).drop (3 + P.length)) =
      { code := .ok, opcode := some op, payload := some Q, checksum := some (zext 32 (csumOf p P)) } := by
  have same_sum : csumOf p P = csumOf p Q := by rw [csumOf_eq_seed_xor, csumOf_eq_seed_xor, hxor]
  have exchanged : (commandPacket p op P).take 3 ++ Q ++ (commandPacket p op P).drop (3 + P.length) =
      packet op Q.length (Q ++ bytesLe32 (zext 32 (csumOf p P))) := by
    rw [commandPacket_eq_packet, drop_packet, List.drop_left, hlen]
    rfl
  rw [exchanged, parseCommand_packet (hlen.trans_le h), if_pos (by rw [same_sum])]

/-! ### The statements -/

/-- Settles O41: the layout of R66 with its two fields written out. -/
theorem pbuildReturnsTheCommandPacket : Obligations.PbuildReturnsTheCommandPacket := by
  refine ⟨fun s op P => ?_, fun op P => decode_of_selects (.pbuild op P)⟩
  rw [exec_pbuild]
  obtain ⟨long, hr⟩ | ⟨fits, hr⟩ := buildCommand_cases s.params op P
  · rw [hr, if_neg (by omega)]
  · rw [hr, if_pos fits, commandPacket, bytesLe16_ofNat fits, bytesLe32_zext, csumOf_eq_foldl]
    rfl

/-- Settles O42: `parseCommand_eq` with the fields read as numbers. -/
theorem pparseCmdChecksLengthThenChecksum : Obligations.PparseCmdChecksLengthThenChecksum := by
  refine ⟨fun s K => ?_, fun b K => decode_of_selects (.pparseCmd b K)⟩
  intro n P crx c
  have payload : slice K 3 (3 + n) = P := by rw [slice, Nat.add_sub_cancel_left]
  have field : (le32 K (3 + n)).toNat = crx := by
    simp only [le32_toNat, Nat.add_right_comm 3 n]
    rfl
  have sum : csumOf s.params (slice K 3 (3 + n)) = c := by rw [payload, csumOf_eq_foldl]
  rw [exec_pparseCmd, parseCommand_eq s.params K n crx c (le16_toNat K 1) field sum, payload]
  rfl

/-- Settles O43: in a packet of the right length the payload is all that follows the status. -/
theorem pparseRspChecksTheTotalLength : Obligations.PparseRspChecksTheTotalLength := by
  refine ⟨fun s W K => ?_, fun b K =>
    ⟨decode_of_selects (.pparseRspS2 b K), decode_of_selects (.pparseRspS4 b K)⟩⟩
  intro w n
  have width : statusBytes W = w := by cases W <;> rfl
  have declared : (le16 K 1).toNat = n := le16_toNat K 1
  rw [exec_pparseRsp]
  obtain ⟨_, rfl, ⟨short, hr⟩ | ⟨long, wrong, hr⟩ | ⟨right, hr⟩⟩ := parseResponse_cases W K
  · rw [hr, if_pos short]
  · rw [width, declared] at wrong
    rw [hr, if_neg (by omega), if_pos wrong, declared]
  · rw [width, declared] at right hr
    have whole_rest : slice K (3 + w) (3 + w + n) = K.drop (3 + w) :=
      List.take_of_length_le (by rw [List.length_drop]; omega)
    rw [hr, if_neg (by omega), if_neg (by omega), whole_rest, slice, Nat.add_sub_cancel_left]
    rfl

/-- Settles O44: the checksum moves by the difference, and only the exclusive or of a payload of that
length matters. -/
theorem singleByteChangesAreDetected : Obligations.SingleByteChangesAreDetected := by
  intro s op P h
  refine ⟨_, exec_pbuild_of_le h op s, fun i d hi hd => ?_, fun Q hlen hxor => ?_⟩
  · exact ⟨xorFold_set hi _ d, xor_ne_self hd _, _, exec_pparseCmd _ s,
      parseCommand_set_payload h hi hd s.params op⟩
  · rw [exec_pparseCmd, parseCommand_exchange_payload h hlen hxor]
    exact ⟨_, rfl, rfl, rfl⟩

/-- Settles O45: `parseCommand_commandPacket`. -/
theorem buildParseRoundTrip : Obligations.BuildParseRoundTrip := by
  intro s op P h
  refine ⟨_, exec_pbuild_of_le h op s, ?_⟩
  rw [exec_pparseCmd, parseCommand_commandPacket h]
  rfl

/-- Settles O47: the two widths need different lengths for the same declared one. -/
theorem responseWidthsExcludeEachOther : Obligations.ResponseWidthsExcludeEachOther := by
  intro s K
  have two := parseResponse_ok_iff .s2 K
  have four := parseResponse_ok_iff .s4 K
  rw [le16_toNat] at two four
  refine ⟨_, _, exec_pparseRsp .s2 K s, exec_pparseRsp .s4 K s, two, four, fun ⟨ok₂, ok₄⟩ => ?_⟩
  have both := (two.1 ok₂).symm.trans (four.1 ok₄)
  simp only [statusBytes] at both
  omega

end Sys2Proof.Proofs
end

section
/-! The proof of the statement about packets inside frames (41_packet_codec.md R150). -/

namespace Sys2Proof.Proofs

open Sys2Proof Sys2Proof.Machine

/-- Content that fits survives FENC and FDEC from `HUNT`, with the parameters kept (R114). -/
theorem content_survives_frame {s : State} {K : Bytes} (hv : s.params.Valid)
    (hunt : s.dec.rxState = .hunt) (fits : K.length ≤ s.params.maxFrameLen) :
    ∃ X t, exec (.fenc K) s =
        .next { s with results := s.results ++ [{ code := .ok, data := some X }] } ∧
      exec (.fdec X) s = .next t ∧
      t.results = s.results ++ [{ code := .ok, data := some K, consumed := some X.length }] ∧
      t.params = s.params := by
  obtain ⟨X, encoded, delivered, -⟩ := frameRoundTrip s K hv hunt
  exact ⟨X, _, encoded, delivered fits, rfl, rfl⟩

/-- A command packet has 7 bytes beside its payload (R66). -/
theorem length_commandPacket (p : Params) (op : Byte) (P : Bytes) :
    (commandPacket p op P).length = 7 + P.length := by
  simp [commandPacket_eq_packet, bytesLe32]
  omega

/-- PBUILD that returned data built the command packet, of a payload the length field holds (R142). -/
theorem of_exec_pbuild_ok {s : State} {op : Byte} {P K : Bytes}
    (h : exec (.pbuild op P) s =
      .next { s with results := s.results ++ [{ code := .ok, data := some K }] }) :
    P.length ≤ 65535 ∧ commandPacket s.params op P = K := by
  rw [exec_pbuild] at h
  obtain ⟨-, hr⟩ | ⟨fits, hr⟩ := buildCommand_cases s.params op P
  · simp [hr] at h
  · exact ⟨fits, by simpa [hr] using h⟩

/-- Settles O46: `content_survives_frame`, then the parser's round trip under the same parameters. -/
theorem packetsSurviveTheFrame : Obligations.PacketsSurviveTheFrame := by
  intro s hv hunt
  refine ⟨fun op P K built fits => ?_, fun W op st P hst hP fits => ?_, fun K long => ?_⟩
  · obtain ⟨hP, rfl⟩ := of_exec_pbuild_ok built
    obtain ⟨X, t, encoded, decoded, results_t, params_t⟩ :=
      content_survives_frame hv hunt ((length_commandPacket s.params op P).trans_le fits)
    refine ⟨X, t, encoded, decoded, results_t, zext 32 (csumOf s.params P), ?_⟩
    rw [exec_pparseCmd, params_t, parseCommand_commandPacket hP]
  · obtain ⟨X, t, encoded, decoded, results_t, -⟩ := content_survives_frame hv hunt fits
    refine ⟨X, t, encoded, decoded, results_t, ?_⟩
    rw [exec_pparseRsp, parseResponse_responsePacket hst hP]
  · obtain ⟨X, encoded, -, oversize⟩ := frameRoundTrip s K hv hunt
    obtain ⟨t, r, decoded, results_t, code_r⟩ := oversize long
    exact ⟨X, t, r, encoded, decoded, results_t, code_r⟩

end Sys2Proof.Proofs
end

section
/-! The proof of the statement about the result codes (60_exceptions.md R200): their values and classes, the
operations that return each, the decoder each error leaves. -/

namespace Sys2Proof.Proofs

open Sys2Proof Sys2Proof.Machine

/-! ### The table of R200 -/

/-- The column "raised by" of R200's table. BAD_REQUEST answers a reserved word, which no
operation has. -/
def operationsReturning : Code → List String
  | .ok => opcodeTable.map OpcodeRow.mnemonic
  | .incomplete | .ferrBadEscape | .ferrEscapeAtEnd | .ferrOversize => ["FDECB", "FDEC"]
  | .malShort | .malLength => ["PPARSE_CMD", "PPARSE_RSP"]
  | .malChecksum => ["PPARSE_CMD"]
  | .lengthOverflow => ["PBUILD"]
  | .badRequest => []

/-- Every operation can return OK. -/
theorem mnemonic_mem_operationsReturning_ok (i : Instr) : i.mnemonic ∈ operationsReturning .ok := by
  obtain ⟨row, hrow, hname⟩ := exists_row_of_mnemonic i
  exact List.mem_map.2 ⟨row, hrow, hname⟩

/-- FDECB and FDEC return every outcome of a `DecStep` (R108, R110). -/
theorem decoders_subset_operationsReturning (n : Nat) (o : DecOutcome) :
    ["FDECB", "FDEC"] ⊆ operationsReturning (decResult n o).code := by
  cases o with
  | delivered content => simp [decResult, operationsReturning, opcodeTable]
  | _ => exact List.Subset.refl _

/-- Each code is returned only by the operations that R200's table names for it. -/
theorem mnemonic_mem_operationsReturning (p : Params) (d : Decoder) (i : Instr) :
    i.mnemonic ∈ operationsReturning (recordOf p d i).code := by
  cases i with
  | fdecb b => exact decoders_subset_operationsReturning _ _ (by simp [Instr.mnemonic])
  | fdec S => exact decoders_subset_operationsReturning _ _ (by simp [Instr.mnemonic])
  | pbuild op P =>
    obtain ⟨-, h⟩ | ⟨-, h⟩ := buildCommand_cases p op P <;> rw [recordOf, h]
    · simp [operationsReturning, Instr.mnemonic]
    · exact mnemonic_mem_operationsReturning_ok _
  | pparseCmd K =>
    obtain ⟨n, -, ⟨-, h⟩ | ⟨-, -, h⟩ | ⟨-, -, h⟩ | ⟨-, -, h⟩⟩ := parseCommand_cases p K <;>
      rw [recordOf, h]
    · simp [operationsReturning, Instr.mnemonic]
    · simp [operationsReturning, Instr.mnemonic]
    · simp [operationsReturning, Instr.mnemonic]
    · exact mnemonic_mem_operationsReturning_ok _
  | pparseRsp W K =>
    obtain ⟨n, -, ⟨-, h⟩ | ⟨-, -, h⟩ | ⟨-, h⟩⟩ := parseResponse_cases W K <;> rw [recordOf, h]
    · simp [operationsReturning, Instr.mnemonic]
    · simp [operationsReturning, Instr.mnemonic]
    · exact mnemonic_mem_operationsReturning_ok _
  | _ => exact mnemonic_mem_operationsReturning_ok _

/-- A code that only stateless operations return leaves the decoder unchanged: R200's "raised by" and R28's
first row give its "state left". -/
theorem decAfter_of_stateless_code {p : Params} {d : Decoder} {i : Instr} {ops : List String}
    (raisers : operationsReturning (recordOf p d i).code = ops)
    (stateless : ops ⊆ ["FENC", "CSUM", "PBUILD", "PPARSE_CMD", "PPARSE_RSP"]) :
    i.mnemonic ∈ ops ∧ decAfter p d i = d := by
  have raised : i.mnemonic ∈ ops := raisers ▸ mnemonic_mem_operationsReturning p d i
  obtain ⟨kept, -⟩ := stateless_access (stateless raised) p d
  exact ⟨raised, kept⟩

/-! ### The statement -/

/-- Settles O18: the table by evaluation; then `operationsReturning` bounds who returns a code, a Malformed code
or LENGTH_OVERFLOW comes from a stateless operation, and a FramingError's code tells the decoder left. -/
theorem resultCodesByOperationAndStateLeft : Obligations.ResultCodesByOperationAndStateLeft := by
  refine ⟨rfl, fun c => by cases c <;> rfl, fun i s => ⟨_, _, exec_eq i s, rfl, ?_⟩⟩
  have raised := mnemonic_mem_operationsReturning s.params s.dec i
  refine ⟨fun h => ?decoders, fun h => ?parsers, fun h => ?checksum, fun h => ?overflow,
    fun h => decAfter_of_framingError (by rw [h, decoderLeft]),
    fun h => decAfter_of_framingError (by rw [h, decoderLeft]),
    fun h => decAfter_of_framingError (by rw [h, decoderLeft]), fun h => ?neverBadRequest⟩
  case decoders =>
    simp only [List.mem_cons, List.not_mem_nil, or_false] at h
    rcases h with h | h | h | h <;> rwa [h] at raised
  case parsers =>
    simp only [List.mem_cons, List.not_mem_nil, or_false] at h
    refine decAfter_of_stateless_code ?_ (by simp)
    rcases h with h | h <;> rw [h, operationsReturning]
  case checksum =>
    exact (decAfter_of_stateless_code (by rw [h, operationsReturning]) (by simp)).imp_left List.mem_singleton.1
  case overflow =>
    exact (decAfter_of_stateless_code (by rw [h, operationsReturning]) (by simp)).imp_left List.mem_singleton.1
  case neverBadRequest =>
    rw [h] at raised
    exact List.not_mem_nil raised

end Sys2Proof.Proofs
end

section
/-! The proofs of the statements about 70_reset_and_hazards.md: the step that finds no input (R242), the
power-on reset (R240) and FRST (R111). With `step_of_reserved` and `step_of_decoded` the two step lemmas give
what a step of a valid block does for each head of the inputs. -/

namespace Sys2Proof.Proofs

open Sys2Proof Sys2Proof.Machine

/-! ### Steps without a request -/

/-- With nothing issued the block waits (R242). -/
theorem step_of_no_input {s : State} (hv : s.params.Valid) (hin : s.inputs = []) : step s = .next s := by
  obtain ⟨-, hs⟩ | ⟨_, h, -⟩ | ⟨_, _, _, h, -⟩ | ⟨_, _, _, h, -⟩ := step_cases hv
  · exact hs
  all_goals simp [hin] at h

/-- A power-on reset is taken from the inputs and resets the decoder (R240). -/
theorem step_of_powerOnReset {s : State} {rest : List Input} (hv : s.params.Valid)
    (hin : s.inputs = .powerOnReset :: rest) :
    step s = .next { s with inputs := rest, dec := Decoder.reset } := by
  obtain ⟨h, -⟩ | ⟨_, h, hs⟩ | ⟨_, _, _, h, -⟩ | ⟨_, _, _, h, -⟩ := step_cases hv
  · simp [hin] at h
  · obtain rfl : rest = _ := by simpa [hin] using h
    exact hs
  all_goals simp [hin] at h

/-! ### The statements -/

/-- Settles O8: of the cases of `step_cases` the idle one is left. -/
theorem stepWithNothingIssuedWaits : Obligations.StepWithNothingIssuedWaits :=
  fun _ => step_of_no_input

/-- Settles O10: the step that takes a power-on reset, FRST's equation, and FRST's row of R63; the decoder at
reset is `HUNT` with an empty buffer. -/
theorem powerOnResetAndFrstResetTheDecoder : Obligations.PowerOnResetAndFrstResetTheDecoder :=
  ⟨fun _ _ => step_of_powerOnReset, exec_eq .frst, fun b S => decode_of_selects (.frst b S)⟩

end Sys2Proof.Proofs
end
